-- ==== Sys2Proof/Word.lean ====
section
/-! DEFINITION. The bit-vector types of the spec's notation (00_scope.md R5, R6). -/

namespace Sys2Proof

/-- A 4-bit register identifier as it stands in a register-pair byte (00_scope.md R4, `NSLOT`). -/
abbrev Nibble := BitVec 4

/-- A byte: the unit of memory and of instruction encodings (00_scope.md R5). -/
abbrev Byte := BitVec 8

/-- A 64-bit value: register, immediate, displacement, address or memory word (00_scope.md R6).
`u(v)` of the spec is `v.toNat`, `s(v)` is `v.toInt`. -/
abbrev Word := BitVec 64

end Sys2Proof
end

