-- ==== Sys2Proof/Config.lean ====
section
/-! DEFINITION. The parameters the spec leaves OPEN (00_scope.md R4): a machine is launched with one value of each. -/

namespace Sys2Proof

/-- The OPEN parameters of 00_scope.md R4, the arguments of a reset. No value is chosen here; the values
`State.reset` takes are in Machine/Parameters.lean (log entries 1 to 5). -/
structure Config where
  /-- `MEM_MAX`: capacity of the memory in bytes (D1). -/
  memMax : Nat
  /-- `ENTRY`: the program counter after reset (D21). -/
  entry : Word
  /-- `REG_RESET`: the registers after reset, by identifier; the entry of the stack pointer is not used,
  because reset sets that register to `MEM_MAX` (D3, D18). -/
  regs : Vector Word 15
  /-- `CC_RESET`: ZF after reset (D4). -/
  zf : Bool
  /-- `CC_RESET`: SF after reset (D4). -/
  sf : Bool
  /-- `CC_RESET`: OF after reset (D4). -/
  of : Bool
  /-- `IMAGE`: the memory after reset (D3). -/
  image : List Host.Cell
  deriving DecidableEq, Repr

end Sys2Proof
end

