-- ==== Sys2Proof/Syntax.lean ====
section
/-! DEFINITION. Registers, opcodes, the fields of an encoding, and the 27 instructions (10_state.md R20, R21; 30_encoding.md R80, R85). -/

namespace Sys2Proof

/-- The 15 storage registers, in the order of their identifiers `0x0` to `0xE` (10_state.md R20, R21).
The sentinel `0xF` is no register and has no constructor (R20, R22; log entry 9). -/
inductive Reg where
  | rax | rcx | rdx | rbx | rsp | rbp | rsi | rdi
  | r8 | r9 | r10 | r11 | r12 | r13 | r14
  deriving DecidableEq, Repr

/-- The place of a register in the register file (10_state.md R20). -/
def Reg.index : Reg → Fin 15
  | .rax => 0 | .rcx => 1 | .rdx => 2 | .rbx => 3 | .rsp => 4 | .rbp => 5 | .rsi => 6 | .rdi => 7
  | .r8 => 8 | .r9 => 9 | .r10 => 10 | .r11 => 11 | .r12 => 12 | .r13 => 13 | .r14 => 14

/-- The 27 valid values of the opcode byte, by mnemonic (30_encoding.md R85). -/
inductive Opcode where
  | halt | nop
  | rrmovq | cmovle | cmovl | cmove | cmovne | cmovge | cmovg
  | irmovq | rmmovq | mrmovq
  | addq | subq | andq | xorq
  | jmp | jle | jl | je | jne | jge | jg
  | call | ret | pushq | popq
  deriving DecidableEq, Repr

/-- The four formats (30_encoding.md R80). -/
inductive Format where
  /-- No operand, 1 byte. -/
  | n
  /-- Register pair, 2 bytes. -/
  | r
  /-- Register pair and constant, 10 bytes. -/
  | rc
  /-- Constant, 9 bytes. -/
  | c
  deriving DecidableEq, Repr

/-- What the `rA` or the `rB` column of 30_encoding.md R85 says of an opcode. -/
inductive FieldRole where
  /-- The format has no such field. -/
  | absent
  /-- The field names a storage register. -/
  | register
  /-- The field must be the sentinel `0xF`. -/
  | sentinel
  deriving DecidableEq, Repr

/-- The fields fetch takes out of an instruction's bytes, before their legality is judged
(30_encoding.md R90 steps 2 to 5). A field the format lacks holds the sentinel, a constant it lacks holds 0. -/
structure Fields where
  op : Opcode
  rA : Nibble
  rB : Nibble
  valC : Word
  deriving DecidableEq, Repr

/-- The instructions, one constructor per row of the opcode map, operands in the Encoder's order
(30_encoding.md R85, R94). Register operands are storage registers; `imm`, `disp` and `dest` are `valC`. -/
inductive Instr where
  | halt
  | nop
  | rrmovq (rA rB : Reg)
  | cmovle (rA rB : Reg)
  | cmovl (rA rB : Reg)
  | cmove (rA rB : Reg)
  | cmovne (rA rB : Reg)
  | cmovge (rA rB : Reg)
  | cmovg (rA rB : Reg)
  | irmovq (rB : Reg) (imm : Word)
  | rmmovq (rA rB : Reg) (disp : Word)
  | mrmovq (rA rB : Reg) (disp : Word)
  | addq (rA rB : Reg)
  | subq (rA rB : Reg)
  | andq (rA rB : Reg)
  | xorq (rA rB : Reg)
  | jmp (dest : Word)
  | jle (dest : Word)
  | jl (dest : Word)
  | je (dest : Word)
  | jne (dest : Word)
  | jge (dest : Word)
  | jg (dest : Word)
  | call (dest : Word)
  | ret
  | pushq (rA : Reg)
  | popq (rA : Reg)
  deriving DecidableEq, Repr

end Sys2Proof
end

