-- ==== Sys2Proof/Machine/Parameters.lean ====
section
/-! DEFINITION. The parameters of 00_scope.md R4 that have a value, and the values `State.reset` takes for the OPEN ones. -/

namespace Sys2Proof.Machine

/-- `SP_ID`, the register that is the stack pointer (00_scope.md R4, the spec's decision D2; log entry 10). -/
def spId : Reg := .rsp

/-- `BP_ID`, the base pointer: a name only, no rule uses it (00_scope.md R4; 10_state.md R24). -/
def bpId : Reg := .rbp

/-- What a byte of memory that nothing has loaded or stored reads as (DESIGN CHOICE, log entry 4). -/
def unlistedByte : Byte := 0x00

/-- The OPEN parameters as `State.reset` takes them: `MEM_MAX` is the test vectors' 0x100 (DESIGN CHOICE, log
entry 1), `ENTRY` its default 0 (00_scope.md R4), registers and flags zero (DESIGN CHOICE, log entries 2, 3),
nothing loaded (log entries 4, 5). -/
def defaultConfig : Config :=
  { memMax := 0x100, entry := 0, regs := Vector.replicate 15 0, zf := false, sf := false, of := false, image := [] }

end Sys2Proof.Machine
end

