-- ==== Sys2Proof/Machine/State.lean ====
section
/-! DEFINITION. The architectural state (10_state.md R37), its value after reset (R39), and the reasons a step can end without a next state. -/

namespace Sys2Proof.Machine

/-- The status condition, the only control and status register (10_state.md R32). -/
inductive Stat where
  /-- Running. -/
  | aok
  /-- Halted, terminal, success. -/
  | hlt
  /-- Terminal, invalid memory access. -/
  | adr
  /-- Terminal, unrecognised instruction. -/
  | ins
  deriving DecidableEq, Repr

/-- The two causes an instruction is abandoned for: `raise ADR` and `raise INS` (00_scope.md R7). -/
inductive Stop where
  | adr
  | ins
  deriving DecidableEq, Repr

/-- The condition codes, three separate bits (10_state.md R29). -/
structure Flags where
  zf : Bool
  sf : Bool
  of : Bool
  deriving DecidableEq, Repr

/-- The memory's contents: the cells that differ from `unlistedByte`, by rising address (log entry 12). -/
abbrev Memory := List Host.Cell

/-- The complete architectural state (10_state.md R37). -/
structure State where
  /-- `x[0x0]` to `x[0xE]` (R20). -/
  regs : Vector Word 15
  /-- The program counter (R26). -/
  pc : Word
  /-- ZF, SF, OF (R29). -/
  flags : Flags
  /-- The status condition (R32). -/
  stat : Stat
  /-- `M[0]` to `M[MEM_MAX - 1]` (R34). -/
  mem : Memory
  /-- `MEM_MAX`, the capacity of that memory; no instruction changes it (R34; 00_scope.md R4; log entry 1). -/
  memMax : Nat
  deriving DecidableEq, Repr

/-- The ways a step ends in a fault. -/
inductive Fault where
  /-- Raised by `step`, never by `exec`: the status is not AOK, and a stopped engine takes no step until it is
  reset (60_exceptions.md R179; log entry 8). Safe: nothing is claimed of a step the hardware does not take. -/
  | stopped (stat : Stat)
  deriving DecidableEq, Repr

/-- The ways an operation is refused. -/
inductive Refusal where
  /-- Raised by an arm of `exec` whose instruction has no meaning yet; no arm of this model does. Safe. -/
  | notModelled (mnemonic : String)
  /-- Raised by `callerLoad`, never by `exec` or `step`: the caller writes outside the memory, which
  70_reset_and_hazards.md R201 forbids it (93_implementation_defined.md U2; log entry 11). Safe. -/
  | loadOutsideMemory (addr : Nat)
  deriving DecidableEq, Repr

/-- What an instruction or a step answers. -/
abbrev Result := Host.Outcome State Fault Refusal

/-- The machine after reset with given values of the OPEN parameters (10_state.md R39; 70_reset_and_hazards.md
R190): status AOK, pc ENTRY, SP MEM_MAX, the other registers and the flags as given, memory as loaded. -/
def State.resetWith (c : Config) : State :=
  { regs := c.regs.set spId.index (BitVec.ofNat 64 c.memMax)
    pc := c.entry
    flags := { zf := c.zf, sf := c.sf, of := c.of }
    stat := .aok
    mem := c.image
    memMax := c.memMax }

/-- The machine right after reset, with the values of Machine/Parameters.lean (log entries 1 to 5). -/
def State.reset : State := State.resetWith defaultConfig

end Sys2Proof.Machine
end

