-- ==== Sys2Proof/Machine/Flags.lean ====
section
/-! DEFINITION. Flag computations of the ALU (43_alu.md R139, R140) and the condition predicate (41_moves.md R115). -/

namespace Sys2Proof.Machine

/-- The flags an ALU instruction assigns from its result and the overflow of its operation (43_alu.md R139). -/
def aluFlags (r : Word) (overflow : Bool) : Flags := { zf := r == 0, sf := r.msb, of := overflow }

/-- OF of `r = b + a`: the operands have one sign and the result the other (43_alu.md R135, R140). -/
def addOverflow (a b r : Word) : Bool := a.msb == b.msb && r.msb != a.msb

/-- OF of `r = b - a`: the operands differ in sign and the result differs from the minuend `b`
(43_alu.md R136, R140; log entry 19). -/
def subOverflow (a b r : Word) : Bool := b.msb != a.msb && r.msb != b.msb

/-- OF of `andq` and `xorq` (43_alu.md R137, R138; log entry 21). -/
def logicOverflow : Bool := false

/-- The seven function codes of moves and jumps by suffix (41_moves.md R115). -/
inductive Cond where
  | always | le | l | e | ne | ge | g
  deriving DecidableEq, Repr

/-- The condition of a function code, the low nibble of opcodes `0x20` to `0x26` and `0x70` to `0x76`; codes 7 to
15 have none (41_moves.md R115). -/
def Cond.ofCode? (fn : Nibble) : Option Cond :=
  match fn.toNat with
  | 0 => some .always | 1 => some .le | 2 => some .l | 3 => some .e
  | 4 => some .ne | 5 => some .ge | 6 => some .g
  | _ => none

/-- The condition predicate; OF takes no part in it (41_moves.md R115; 10_state.md R31). -/
def Cond.holds : Cond → Flags → Bool
  | .always, _ => true
  | .le, f => f.sf || f.zf
  | .l, f => f.sf
  | .e, f => f.zf
  | .ne, f => !f.zf
  | .ge, f => !f.sf
  | .g, f => !f.sf && !f.zf

end Sys2Proof.Machine
end

