-- ==== Sys2Proof/Machine/Ops.lean ====
section
/-! DEFINITION. The named operations over registers, program counter, status and memory, the stop operation included (00_scope.md R7; 20_memory.md R52 to R61; 60_exceptions.md R177). -/

namespace Sys2Proof.Machine

/-- `x[r]` (00_scope.md R7). -/
def State.readReg (s : State) (r : Reg) : Word := s.regs[r.index]

/-- `x[r] <- v` (00_scope.md R7). -/
def State.writeReg (s : State) (r : Reg) (v : Word) : State :=
  { s with regs := s.regs.set r.index v }

/-- `SP`, shorthand for `x[SP_ID]` (00_scope.md R7; 10_state.md R23). -/
def State.sp (s : State) : Word := s.readReg spId

/-- `pc <- target` (00_scope.md R7). -/
def State.setPc (s : State) (target : Word) : State := { s with pc := target }

/-- Assigns ZF, SF and OF together (10_state.md R30). -/
def State.setFlags (s : State) (f : Flags) : State := { s with flags := f }

/-- `stat <- st` (10_state.md R32). -/
def State.setStat (s : State) (st : Stat) : State := { s with stat := st }

/-- Replaces the memory's contents. -/
def State.setMem (s : State) (m : Memory) : State := { s with mem := m }

/-- The status value a stop leaves (60_exceptions.md R171). -/
def Stop.stat : Stop → Stat
  | .adr => .adr
  | .ins => .ins

/-- `raise ADR`, `raise INS`: the instruction is abandoned, the status records the cause and nothing else
changes, not even pc (00_scope.md R7; 60_exceptions.md R177; log entries 7, 18). There is no handler and no
return: reset is the only way out (R178, R179). -/
def State.raise (s : State) (c : Stop) : State := s.setStat c.stat

/-- What a step answers in a stopped engine: it takes none (60_exceptions.md R179; log entry 8). -/
def State.whenStopped (s : State) : Result := .fault (.stopped s.stat)

/-- `M[a]`: the listed byte, or what an unlisted address reads as (log entry 4). -/
def Memory.readByte : Memory → Nat → Byte
  | [], _ => unlistedByte
  | (k, b) :: rest, a => if k = a then b else Memory.readByte rest a

/-- Drops every cell of an address. -/
def Memory.erase : Memory → Nat → Memory
  | [], _ => []
  | (k, b) :: rest, a => if k = a then Memory.erase rest a else (k, b) :: Memory.erase rest a

/-- Lists a byte at an address, keeping the addresses rising. -/
def Memory.insert : Memory → Nat → Byte → Memory
  | [], a, v => [(a, v)]
  | (k, b) :: rest, a, v =>
    if a < k then (a, v) :: (k, b) :: rest
    else if k = a then (a, v) :: rest
    else (k, b) :: Memory.insert rest a v

/-- `M[a] <- v`, in canonical form: the value an unlisted address reads as is not listed (log entry 12). -/
def Memory.writeByte (m : Memory) (a : Nat) (v : Byte) : Memory :=
  if v = unlistedByte then m.erase a else m.insert a v

/-- The canonical form: addresses strictly rising, no cell equal to what an unlisted address reads as. -/
abbrev Memory.wf (m : Memory) : Prop :=
  List.Pairwise (fun x y : Host.Cell => x.1 < y.1) m ∧ ∀ c ∈ m, c.2 ≠ unlistedByte

/-- The `n` bytes at `a` in increasing address order (20_memory.md R53). -/
def Memory.readBytes (m : Memory) (a : Nat) : Nat → List Byte
  | 0 => []
  | n + 1 => m.readByte a :: Memory.readBytes m (a + 1) n

/-- The eight bytes at `a` as a data word, the byte at the lowest address most significant (20_memory.md R53,
R56; log entry 14). -/
def Memory.readWord (m : Memory) (a : Nat) : Word :=
  m.readByte a ++ m.readByte (a + 1) ++ m.readByte (a + 2) ++ m.readByte (a + 3) ++
    m.readByte (a + 4) ++ m.readByte (a + 5) ++ m.readByte (a + 6) ++ m.readByte (a + 7)

/-- Writes bytes at `a` and the addresses after it. -/
def Memory.writeBytes (m : Memory) (a : Nat) : List Byte → Memory
  | [] => m
  | b :: rest => Memory.writeBytes (m.writeByte a b) (a + 1) rest

/-- The bytes of a data word in increasing address order, the most significant first (20_memory.md R54, R56;
log entry 14). -/
def dataBytes (v : Word) : List Byte :=
  [v.extractLsb' 56 8, v.extractLsb' 48 8, v.extractLsb' 40 8, v.extractLsb' 32 8,
   v.extractLsb' 24 8, v.extractLsb' 16 8, v.extractLsb' 8 8, v.extractLsb' 0 8]

/-- Writes a data word to the eight bytes at `a` (20_memory.md R54). -/
def Memory.writeWord (m : Memory) (a : Nat) (v : Word) : Memory := m.writeBytes a (dataBytes v)

/-- `InBounds(addr, n)`: every one of the `n` bytes at `addr` lies in `0 .. MEM_MAX - 1`, judged under the signed
reading, the sum taken as integers (20_memory.md R52; log entries 13, 15). -/
def State.inBounds (s : State) (addr : Word) (n : Nat) : Bool :=
  decide (0 ≤ addr.toInt ∧ addr.toInt + n ≤ s.memMax)

/-- Whether `StoreGuard(addr)` stops the store: `s(addr) >= s(SP)` (20_memory.md R61; log entries 15, 16). -/
def State.guardStops (s : State) (addr : Word) : Bool := decide (s.sp.toInt ≤ addr.toInt)

/-- `MemRead(addr, 8)`; none is `raise ADR` (20_memory.md R53). -/
def State.memRead8 (s : State) (addr : Word) : Option Word :=
  if s.inBounds addr 8 then some (s.mem.readWord addr.toNat) else none

/-- `MemWrite(addr, 8, v)`; none is `raise ADR`, and then no byte is written (20_memory.md R54). -/
def State.memWrite8 (s : State) (addr v : Word) : Option State :=
  if s.inBounds addr 8 then some (s.setMem (s.mem.writeWord addr.toNat v)) else none

/-- A store: `StoreGuard(ea)`, then `MemWrite(ea, 8, v)`; none is `raise ADR` (20_memory.md R62). -/
def State.store (s : State) (ea v : Word) : Option State :=
  if s.guardStops ea then none else s.memWrite8 ea v

/-- Puts bytes at `a` and the addresses after it, leaving out those outside the memory: how an instruction is
laid where fetch reads it (log entry 5). -/
def State.placeBytes (s : State) (a : Nat) (bytes : List Byte) : State :=
  s.setMem (s.mem.writeBytes a (bytes.take (s.memMax - a)))

end Sys2Proof.Machine
end

