-- ==== Sys2Proof/Machine/Operands.lean ====
section
/-! DEFINITION. The operand forms (30_encoding.md R84): base plus displacement, the implicit stack operand, and the sequential address valP. Register direct operands are `State.readReg` and `State.writeReg`; immediates and code addresses are the instruction's own `valC`. -/

namespace Sys2Proof.Machine

/-- `valP`, the address of the next sequential instruction, modulo 2^64 (00_scope.md R7). -/
def State.valP (s : State) (len : Nat) : Word := s.pc + BitVec.ofNat 64 len

/-- The effective address `x[rB] + valC`, modulo 2^64 (42_memory_moves.md R132; the base is `rB`, log entry 20). -/
def State.effectiveAddress (s : State) (rB : Reg) (disp : Word) : Word := s.readReg rB + disp

/-- The address a push stores to, `SP - 8` modulo 2^64 (46_stack.md R165; 45_call_ret.md R160). -/
def State.pushAddress (s : State) : Word := s.sp - 8

/-- A push: decrement by 8, store, update pointer; none is `raise ADR` (46_stack.md R165, R167). -/
def State.push (s : State) (v : Word) : Option State :=
  match s.store s.pushAddress v with
  | none => none
  | some t => some (t.writeReg spId s.pushAddress)

/-- A pop: load at SP, increment pointer by 8; none is `raise ADR` (46_stack.md R166, R167). -/
def State.pop (s : State) : Option (Word × State) :=
  match s.memRead8 s.sp with
  | none => none
  | some v => some (v, s.writeReg spId (s.sp + 8))

end Sys2Proof.Machine
end

