-- ==== Sys2Proof/Machine/Alu.lean ====
section
/-! DEFINITION. The meanings of `addq`, `subq`, `andq`, `xorq` (43_alu.md). -/

namespace Sys2Proof.Machine

/-- What the four share: write the result, assign the three flags, advance pc by 2 (43_alu.md R139). -/
def State.aluResult (s : State) (rB : Reg) (r : Word) (overflow : Bool) : State :=
  ((s.writeReg rB r).setFlags (aluFlags r overflow)).setPc (s.valP 2)

/-- `addq rA,rB` (43_alu.md R135). -/
def execAddq (rA rB : Reg) (s : State) : Result :=
  let a := s.readReg rA
  let b := s.readReg rB
  let r := b + a
  .next (s.aluResult rB r (addOverflow a b r))

/-- `subq rA,rB`: `rB - rA` (43_alu.md R136; log entry 19). -/
def execSubq (rA rB : Reg) (s : State) : Result :=
  let a := s.readReg rA
  let b := s.readReg rB
  let r := b - a
  .next (s.aluResult rB r (subOverflow a b r))

/-- `andq rA,rB` (43_alu.md R137). -/
def execAndq (rA rB : Reg) (s : State) : Result :=
  .next (s.aluResult rB (s.readReg rB &&& s.readReg rA) logicOverflow)

/-- `xorq rA,rB` (43_alu.md R138). -/
def execXorq (rA rB : Reg) (s : State) : Result :=
  .next (s.aluResult rB (s.readReg rB ^^^ s.readReg rA) logicOverflow)

end Sys2Proof.Machine
end

