-- ==== Sys2Proof/Machine/Calls.lean ====
section
/-! DEFINITION. The meanings of `call` and `ret` (45_call_ret.md). -/

namespace Sys2Proof.Machine

/-- `call dest` (45_call_ret.md R160). -/
def execCall (dest : Word) (s : State) : Result :=
  match s.push (s.valP 9) with
  | none => .next (s.raise .adr)
  | some t => .next (t.setPc dest)

/-- `ret` (45_call_ret.md R161). -/
def execRet (s : State) : Result :=
  match s.pop with
  | none => .next (s.raise .adr)
  | some (v, t) => .next (t.setPc v)

end Sys2Proof.Machine
end

