-- ==== Sys2Proof/Machine/Control.lean ====
section
/-! DEFINITION. The meanings of `halt` and `nop` (40_halt_nop.md). -/

namespace Sys2Proof.Machine

/-- `halt` (40_halt_nop.md R110): pc advances, the status becomes HLT (log entry 18 for pc). -/
def execHalt (s : State) : Result := .next ((s.setPc (s.valP 1)).setStat .hlt)

/-- `nop` (40_halt_nop.md R111): pc advances. -/
def execNop (s : State) : Result := .next (s.setPc (s.valP 1))

end Sys2Proof.Machine
end

