-- ==== Sys2Proof/Machine/Jumps.lean ====
section
/-! DEFINITION. The meanings of the jumps (44_jumps.md). -/

namespace Sys2Proof.Machine

/-- A jump under a condition: to `dest`, unchecked, if it holds, else on by 9 (44_jumps.md R152). -/
def State.condJump (s : State) (c : Cond) (dest : Word) : State :=
  s.setPc (if c.holds s.flags then dest else s.valP 9)

/-- `jmp dest` (44_jumps.md R145). -/
def execJmp (dest : Word) (s : State) : Result := .next (s.condJump .always dest)

/-- `jle dest` (44_jumps.md R146). -/
def execJle (dest : Word) (s : State) : Result := .next (s.condJump .le dest)

/-- `jl dest` (44_jumps.md R147). -/
def execJl (dest : Word) (s : State) : Result := .next (s.condJump .l dest)

/-- `je dest` (44_jumps.md R148). -/
def execJe (dest : Word) (s : State) : Result := .next (s.condJump .e dest)

/-- `jne dest` (44_jumps.md R149). -/
def execJne (dest : Word) (s : State) : Result := .next (s.condJump .ne dest)

/-- `jge dest` (44_jumps.md R150). -/
def execJge (dest : Word) (s : State) : Result := .next (s.condJump .ge dest)

/-- `jg dest` (44_jumps.md R151). -/
def execJg (dest : Word) (s : State) : Result := .next (s.condJump .g dest)

end Sys2Proof.Machine
end

