-- ==== Sys2Proof/Machine/MemoryMoves.lean ====
section
/-! DEFINITION. The meanings of `rmmovq` and `mrmovq` (42_memory_moves.md). -/

namespace Sys2Proof.Machine

/-- `rmmovq rA,rB,disp` (42_memory_moves.md R130). -/
def execRmmovq (rA rB : Reg) (disp : Word) (s : State) : Result :=
  match s.store (s.effectiveAddress rB disp) (s.readReg rA) with
  | none => .next (s.raise .adr)
  | some t => .next (t.setPc (s.valP 10))

/-- `mrmovq rA,rB,disp` (42_memory_moves.md R131). -/
def execMrmovq (rA rB : Reg) (disp : Word) (s : State) : Result :=
  match s.memRead8 (s.effectiveAddress rB disp) with
  | none => .next (s.raise .adr)
  | some v => .next ((s.writeReg rA v).setPc (s.valP 10))

end Sys2Proof.Machine
end

