-- ==== Sys2Proof/Machine/Moves.lean ====
section
/-! DEFINITION. The meanings of the register, conditional and immediate moves (41_moves.md). -/

namespace Sys2Proof.Machine

/-- A move under a condition: `x[rB] <- x[rA]` if it holds; pc advances by 2 either way (41_moves.md R116 to
R122). -/
def State.condMove (s : State) (c : Cond) (rA rB : Reg) : State :=
  (if c.holds s.flags then s.writeReg rB (s.readReg rA) else s).setPc (s.valP 2)

/-- `rrmovq rA,rB` (41_moves.md R116). -/
def execRrmovq (rA rB : Reg) (s : State) : Result := .next (s.condMove .always rA rB)

/-- `cmovle rA,rB` (41_moves.md R117). -/
def execCmovle (rA rB : Reg) (s : State) : Result := .next (s.condMove .le rA rB)

/-- `cmovl rA,rB` (41_moves.md R118). -/
def execCmovl (rA rB : Reg) (s : State) : Result := .next (s.condMove .l rA rB)

/-- `cmove rA,rB` (41_moves.md R119). -/
def execCmove (rA rB : Reg) (s : State) : Result := .next (s.condMove .e rA rB)

/-- `cmovne rA,rB` (41_moves.md R120). -/
def execCmovne (rA rB : Reg) (s : State) : Result := .next (s.condMove .ne rA rB)

/-- `cmovge rA,rB` (41_moves.md R121). -/
def execCmovge (rA rB : Reg) (s : State) : Result := .next (s.condMove .ge rA rB)

/-- `cmovg rA,rB` (41_moves.md R122). -/
def execCmovg (rA rB : Reg) (s : State) : Result := .next (s.condMove .g rA rB)

/-- `irmovq rB,imm` (41_moves.md R123). -/
def execIrmovq (rB : Reg) (imm : Word) (s : State) : Result :=
  .next ((s.writeReg rB imm).setPc (s.valP 10))

end Sys2Proof.Machine
end

