-- ==== Sys2Proof/Machine/Stack.lean ====
section
/-! DEFINITION. The meanings of `pushq` and `popq` (46_stack.md). -/

namespace Sys2Proof.Machine

/-- `pushq rA`: the value pushed is read before SP changes (46_stack.md R165; log entry 22). -/
def execPushq (rA : Reg) (s : State) : Result :=
  match s.push (s.readReg rA) with
  | none => .next (s.raise .adr)
  | some t => .next (t.setPc (s.valP 2))

/-- `popq rA`: the loaded word is written after SP, so it wins when `rA` is SP (46_stack.md R166; log entry 22). -/
def execPopq (rA : Reg) (s : State) : Result :=
  match s.pop with
  | none => .next (s.raise .adr)
  | some (v, t) => .next ((t.writeReg rA v).setPc (s.valP 2))

end Sys2Proof.Machine
end

