-- ==== Sys2Proof/WellFormed.lean ====
section
/-! DEFINITION. When the register fields of an encoding are legal for its opcode (30_encoding.md R85, R89). -/

namespace Sys2Proof

/-- The `rA` column of the opcode map (30_encoding.md R85). -/
def Opcode.roleA : Opcode → FieldRole
  | .halt | .nop | .ret => .absent
  | .jmp | .jle | .jl | .je | .jne | .jge | .jg | .call => .absent
  | .irmovq => .sentinel
  | .rrmovq | .cmovle | .cmovl | .cmove | .cmovne | .cmovge | .cmovg => .register
  | .rmmovq | .mrmovq => .register
  | .addq | .subq | .andq | .xorq => .register
  | .pushq | .popq => .register

/-- The `rB` column of the opcode map (30_encoding.md R85). -/
def Opcode.roleB : Opcode → FieldRole
  | .halt | .nop | .ret => .absent
  | .jmp | .jle | .jl | .je | .jne | .jge | .jg | .call => .absent
  | .pushq | .popq => .sentinel
  | .irmovq => .register
  | .rrmovq | .cmovle | .cmovl | .cmove | .cmovne | .cmovge | .cmovg => .register
  | .rmmovq | .mrmovq => .register
  | .addq | .subq | .andq | .xorq => .register

/-- Whether a nibble is legal in a field of the given role: a register field is in `0x0` to `0xE`, a sentinel
field is `0xF` (30_encoding.md R89). -/
def FieldRole.legal : FieldRole → Nibble → Bool
  | .absent, _ => true
  | .register, n => n != 0xF
  | .sentinel, n => n == 0xF

/-- The check of 30_encoding.md R89 on fetched fields: both register fields are legal for the opcode. It does
not look at the flags. -/
def Fields.wellFormed (f : Fields) : Bool :=
  f.op.roleA.legal f.rA && f.op.roleB.legal f.rB

end Sys2Proof
end

