-- ==== Sys2Proof/Decode.lean ====
section
/-! DEFINITION. The decoder, total on any bytes and rejecting by name, and the Encoder's serialisation (30_encoding.md R80 to R97). -/

namespace Sys2Proof

/-- The sentinel identifier `RNONE` (00_scope.md R4). -/
def rNone : Nibble := 0xF

/-- The opcode byte of each opcode (30_encoding.md R85). -/
def Opcode.toByte : Opcode → Byte
  | .halt => 0x00 | .nop => 0x10
  | .rrmovq => 0x20 | .cmovle => 0x21 | .cmovl => 0x22 | .cmove => 0x23
  | .cmovne => 0x24 | .cmovge => 0x25 | .cmovg => 0x26
  | .irmovq => 0x30 | .rmmovq => 0x40 | .mrmovq => 0x50
  | .addq => 0x60 | .subq => 0x61 | .andq => 0x62 | .xorq => 0x63
  | .jmp => 0x70 | .jle => 0x71 | .jl => 0x72 | .je => 0x73
  | .jne => 0x74 | .jge => 0x75 | .jg => 0x76
  | .call => 0x80 | .ret => 0x90 | .pushq => 0xA0 | .popq => 0xB0

/-- The opcode map read from the byte: the whole byte is compared, and a byte that is none of the 27 is no
opcode (30_encoding.md R81, R85, R88). -/
def Opcode.ofByte? (b : Byte) : Option Opcode :=
  match b.toNat with
  | 0x00 => some .halt | 0x10 => some .nop
  | 0x20 => some .rrmovq | 0x21 => some .cmovle | 0x22 => some .cmovl | 0x23 => some .cmove
  | 0x24 => some .cmovne | 0x25 => some .cmovge | 0x26 => some .cmovg
  | 0x30 => some .irmovq | 0x40 => some .rmmovq | 0x50 => some .mrmovq
  | 0x60 => some .addq | 0x61 => some .subq | 0x62 => some .andq | 0x63 => some .xorq
  | 0x70 => some .jmp | 0x71 => some .jle | 0x72 => some .jl | 0x73 => some .je
  | 0x74 => some .jne | 0x75 => some .jge | 0x76 => some .jg
  | 0x80 => some .call | 0x90 => some .ret | 0xA0 => some .pushq | 0xB0 => some .popq
  | _ => none

/-- The format column of the opcode map (30_encoding.md R85). -/
def Opcode.format : Opcode → Format
  | .halt | .nop | .ret => .n
  | .rrmovq | .cmovle | .cmovl | .cmove | .cmovne | .cmovge | .cmovg => .r
  | .addq | .subq | .andq | .xorq | .pushq | .popq => .r
  | .irmovq | .rmmovq | .mrmovq => .rc
  | .jmp | .jle | .jl | .je | .jne | .jge | .jg | .call => .c

/-- The length of a format in bytes (30_encoding.md R80). -/
def Format.length : Format → Nat
  | .n => 1 | .r => 2 | .rc => 10 | .c => 9

/-- The length of an instruction in bytes, fixed by the opcode alone (30_encoding.md R87). -/
def Opcode.length (op : Opcode) : Nat := op.format.length

/-- The identifier of a register (10_state.md R21). -/
def Reg.toNibble : Reg → Nibble
  | .rax => 0x0 | .rcx => 0x1 | .rdx => 0x2 | .rbx => 0x3
  | .rsp => 0x4 | .rbp => 0x5 | .rsi => 0x6 | .rdi => 0x7
  | .r8 => 0x8 | .r9 => 0x9 | .r10 => 0xA | .r11 => 0xB
  | .r12 => 0xC | .r13 => 0xD | .r14 => 0xE

/-- The register an identifier names; `0xF` names none (10_state.md R20, R21). -/
def Reg.ofNibble? (n : Nibble) : Option Reg :=
  match n.toNat with
  | 0x0 => some .rax | 0x1 => some .rcx | 0x2 => some .rdx | 0x3 => some .rbx
  | 0x4 => some .rsp | 0x5 => some .rbp | 0x6 => some .rsi | 0x7 => some .rdi
  | 0x8 => some .r8 | 0x9 => some .r9 | 0xA => some .r10 | 0xB => some .r11
  | 0xC => some .r12 | 0xD => some .r13 | 0xE => some .r14
  | _ => none

/-- `rA`, the high nibble of a register-pair byte (30_encoding.md R82). -/
def pairHigh (p : Byte) : Nibble := p.extractLsb' 4 4

/-- `rB`, the low nibble of a register-pair byte (30_encoding.md R82). -/
def pairLow (p : Byte) : Nibble := p.extractLsb' 0 4

/-- The register-pair byte of two nibbles (30_encoding.md R95). -/
def pairByte (rA rB : Nibble) : Byte := rA ++ rB

/-- The constant `valC` of eight bytes in increasing address order, the first most significant
(30_encoding.md R83; 20_memory.md R55). -/
def constWord (c0 c1 c2 c3 c4 c5 c6 c7 : Byte) : Word :=
  c0 ++ c1 ++ c2 ++ c3 ++ c4 ++ c5 ++ c6 ++ c7

/-- The eight bytes of a constant, most significant first (30_encoding.md R95). -/
def constBytes (v : Word) : List Byte :=
  [v.extractLsb' 56 8, v.extractLsb' 48 8, v.extractLsb' 40 8, v.extractLsb' 32 8,
   v.extractLsb' 24 8, v.extractLsb' 16 8, v.extractLsb' 8 8, v.extractLsb' 0 8]

/-- The fields of an opcode taken from the bytes after the opcode byte, with the bytes left over; none when
there are too few bytes (30_encoding.md R80, R90 step 5). -/
def takeFields (op : Opcode) (bytes : List Byte) : Option (Fields × List Byte) :=
  match op.format, bytes with
  | .n, rest => some ({ op, rA := rNone, rB := rNone, valC := 0 }, rest)
  | .r, p :: rest => some ({ op, rA := pairHigh p, rB := pairLow p, valC := 0 }, rest)
  | .rc, p :: c0 :: c1 :: c2 :: c3 :: c4 :: c5 :: c6 :: c7 :: rest =>
    some ({ op, rA := pairHigh p, rB := pairLow p, valC := constWord c0 c1 c2 c3 c4 c5 c6 c7 }, rest)
  | .c, c0 :: c1 :: c2 :: c3 :: c4 :: c5 :: c6 :: c7 :: rest =>
    some ({ op, rA := rNone, rB := rNone, valC := constWord c0 c1 c2 c3 c4 c5 c6 c7 }, rest)
  | _, _ => none

/-- An instruction of two register operands, when both fields name a register (30_encoding.md R89). -/
def twoRegs (rA rB : Nibble) (mk : Reg → Reg → Instr) : Option Instr :=
  match Reg.ofNibble? rA, Reg.ofNibble? rB with
  | some a, some b => some (mk a b)
  | _, _ => none

/-- An instruction of one register operand beside a field that must be the sentinel (30_encoding.md R89). -/
def oneReg (field sentinel : Nibble) (mk : Reg → Instr) : Option Instr :=
  if sentinel = rNone then (Reg.ofNibble? field).map mk else none

/-- The instruction fetched fields stand for; none when a register field is illegal for the opcode
(30_encoding.md R85, R89, R90 step 6). -/
def Fields.toInstr? (f : Fields) : Option Instr :=
  match f.op with
  | .halt => some .halt
  | .nop => some .nop
  | .rrmovq => twoRegs f.rA f.rB .rrmovq
  | .cmovle => twoRegs f.rA f.rB .cmovle
  | .cmovl => twoRegs f.rA f.rB .cmovl
  | .cmove => twoRegs f.rA f.rB .cmove
  | .cmovne => twoRegs f.rA f.rB .cmovne
  | .cmovge => twoRegs f.rA f.rB .cmovge
  | .cmovg => twoRegs f.rA f.rB .cmovg
  | .irmovq => oneReg f.rB f.rA (fun b => .irmovq b f.valC)
  | .rmmovq => twoRegs f.rA f.rB (fun a b => .rmmovq a b f.valC)
  | .mrmovq => twoRegs f.rA f.rB (fun a b => .mrmovq a b f.valC)
  | .addq => twoRegs f.rA f.rB .addq
  | .subq => twoRegs f.rA f.rB .subq
  | .andq => twoRegs f.rA f.rB .andq
  | .xorq => twoRegs f.rA f.rB .xorq
  | .jmp => some (.jmp f.valC)
  | .jle => some (.jle f.valC)
  | .jl => some (.jl f.valC)
  | .je => some (.je f.valC)
  | .jne => some (.jne f.valC)
  | .jge => some (.jge f.valC)
  | .jg => some (.jg f.valC)
  | .call => some (.call f.valC)
  | .ret => some .ret
  | .pushq => oneReg f.rA f.rB .pushq
  | .popq => oneReg f.rA f.rB .popq

/-- What the decoder answers: an instruction and the bytes after it, or the reason there is none. -/
inductive Decoded where
  /-- An instruction and the bytes that follow it. -/
  | instr (i : Instr) (rest : List Byte)
  /-- There is not even an opcode byte. -/
  | noBytes
  /-- The opcode byte is none of the 27 (30_encoding.md R88). -/
  | invalidOpcode (b : Byte)
  /-- The opcode is valid and the bytes end before the instruction does. -/
  | truncated (op : Opcode)
  /-- A register field is illegal for the opcode (30_encoding.md R89). -/
  | illegalRegister (f : Fields)
  deriving DecidableEq, Repr

/-- The decoder (30_encoding.md R90 steps 2 to 6; R92: it depends on the bytes alone). The order of its answers
is the order of the checks there: unknown opcode, then missing bytes, then illegal register field. -/
def decode : List Byte → Decoded
  | [] => .noBytes
  | b :: rest =>
    match Opcode.ofByte? b with
    | none => .invalidOpcode b
    | some op =>
      match takeFields op rest with
      | none => .truncated op
      | some (f, rest') =>
        match f.toInstr? with
        | none => .illegalRegister f
        | some i => .instr i rest'

/-- The fields the canonical encoding of an instruction holds, with the sentinel in a register field the
instruction does not use (30_encoding.md R95). -/
def Instr.toFields : Instr → Fields
  | .halt => { op := .halt, rA := rNone, rB := rNone, valC := 0 }
  | .nop => { op := .nop, rA := rNone, rB := rNone, valC := 0 }
  | .rrmovq a b => { op := .rrmovq, rA := a.toNibble, rB := b.toNibble, valC := 0 }
  | .cmovle a b => { op := .cmovle, rA := a.toNibble, rB := b.toNibble, valC := 0 }
  | .cmovl a b => { op := .cmovl, rA := a.toNibble, rB := b.toNibble, valC := 0 }
  | .cmove a b => { op := .cmove, rA := a.toNibble, rB := b.toNibble, valC := 0 }
  | .cmovne a b => { op := .cmovne, rA := a.toNibble, rB := b.toNibble, valC := 0 }
  | .cmovge a b => { op := .cmovge, rA := a.toNibble, rB := b.toNibble, valC := 0 }
  | .cmovg a b => { op := .cmovg, rA := a.toNibble, rB := b.toNibble, valC := 0 }
  | .irmovq b imm => { op := .irmovq, rA := rNone, rB := b.toNibble, valC := imm }
  | .rmmovq a b disp => { op := .rmmovq, rA := a.toNibble, rB := b.toNibble, valC := disp }
  | .mrmovq a b disp => { op := .mrmovq, rA := a.toNibble, rB := b.toNibble, valC := disp }
  | .addq a b => { op := .addq, rA := a.toNibble, rB := b.toNibble, valC := 0 }
  | .subq a b => { op := .subq, rA := a.toNibble, rB := b.toNibble, valC := 0 }
  | .andq a b => { op := .andq, rA := a.toNibble, rB := b.toNibble, valC := 0 }
  | .xorq a b => { op := .xorq, rA := a.toNibble, rB := b.toNibble, valC := 0 }
  | .jmp dest => { op := .jmp, rA := rNone, rB := rNone, valC := dest }
  | .jle dest => { op := .jle, rA := rNone, rB := rNone, valC := dest }
  | .jl dest => { op := .jl, rA := rNone, rB := rNone, valC := dest }
  | .je dest => { op := .je, rA := rNone, rB := rNone, valC := dest }
  | .jne dest => { op := .jne, rA := rNone, rB := rNone, valC := dest }
  | .jge dest => { op := .jge, rA := rNone, rB := rNone, valC := dest }
  | .jg dest => { op := .jg, rA := rNone, rB := rNone, valC := dest }
  | .call dest => { op := .call, rA := rNone, rB := rNone, valC := dest }
  | .ret => { op := .ret, rA := rNone, rB := rNone, valC := 0 }
  | .pushq a => { op := .pushq, rA := a.toNibble, rB := rNone, valC := 0 }
  | .popq a => { op := .popq, rA := a.toNibble, rB := rNone, valC := 0 }

/-- The encoded length of an instruction (30_encoding.md R87). -/
def Instr.length (i : Instr) : Nat := i.toFields.op.length

/-- An instruction is well formed when its canonical fields pass the check of 30_encoding.md R89. -/
abbrev Instr.WellFormed (i : Instr) : Prop := i.toFields.wellFormed = true

/-- The bytes of fields: opcode, register-pair byte where the format has one, constant where it has one
(30_encoding.md R80, R95). -/
def Fields.bytes (f : Fields) : List Byte :=
  match f.op.format with
  | .n => [f.op.toByte]
  | .r => [f.op.toByte, pairByte f.rA f.rB]
  | .rc => f.op.toByte :: pairByte f.rA f.rB :: constBytes f.valC
  | .c => f.op.toByte :: constBytes f.valC

/-- The canonical encoding of an instruction, as the Encoder writes it (30_encoding.md R95). -/
def encode (i : Instr) : List Byte := i.toFields.bytes

/-- The bytes of an instruction given as one number the way spec/opcode_table.json numbers its bits: `n` bytes,
byte 0 most significant (log entry 6), then zero bytes up to the longest instruction, 10 bytes. -/
def tableBytes (nbits w : Nat) : List Byte :=
  let n := (nbits + 7) / 8
  ((List.range n).map fun k => BitVec.ofNat 8 (w >>> (8 * (n - 1 - k)))) ++ List.replicate (10 - n) 0

/-- The instruction the decoder reads from the bits of a row of spec/opcode_table.json (log entry 6). -/
def decodeTableWord (nbits w : Nat) : Option Instr :=
  match decode (tableBytes nbits w) with
  | .instr i _ => some i
  | _ => none

end Sys2Proof
end

