-- ==== Sys2Proof/Machine/Fetch.lean ====
section
/-! DEFINITION. Fetching and decoding the instruction at pc, with its bounds checks (30_encoding.md R90; 20_memory.md R64). -/

namespace Sys2Proof.Machine

/-- What fetch and decode yield: an instruction, or a stop (30_encoding.md R90: exactly one of them). -/
inductive Fetched where
  | instr (i : Instr)
  | stop (c : Stop)
  deriving DecidableEq, Repr

/-- Steps 5 and 6 of `Decode`, on the instruction's own bytes (30_encoding.md R90). -/
def fetchDecoded (bytes : List Byte) : Fetched :=
  match decode bytes with
  | .instr i _ => .instr i
  | .noBytes => .stop .adr
  | .invalidOpcode _ => .stop .ins
  | .truncated _ => .stop .adr
  | .illegalRegister _ => .stop .ins

/-- `Decode(pc)`: opcode byte in bounds, opcode known, all bytes in bounds, register fields legal, in this order
(30_encoding.md R90; 60_exceptions.md R176; log entry 17). -/
def State.fetch (s : State) : Fetched :=
  if s.inBounds s.pc 1 then
    match Opcode.ofByte? (s.mem.readByte s.pc.toNat) with
    | none => .stop .ins
    | some op =>
      if s.inBounds s.pc op.length then fetchDecoded (s.mem.readBytes s.pc.toNat op.length)
      else .stop .adr
  else .stop .adr

end Sys2Proof.Machine
end

