-- ==== Sys2Proof/Machine/Step.lean ====
section
/-! DEFINITION. One pass of the run loop (60_exceptions.md R187), and how the host lays an instruction where the next step fetches it. -/

namespace Sys2Proof.Machine

/-- One iteration of the run loop: while the status is AOK, fetch and decode at pc, then perform the instruction's
rule; a stop raised by fetch abandons the iteration (60_exceptions.md R187; 00_scope.md R8). -/
def step (s : State) : Host.Outcome State Fault Refusal :=
  match s.stat with
  | .aok =>
    match s.fetch with
    | .instr i => exec i s
    | .stop c => .next (s.raise c)
  | _ => s.whenStopped

/-- `s` with the instruction of a table row laid at pc, where the next step fetches it; the status is AOK, which
the fetch needs (log entries 5, 6). -/
def State.withFetchWord (s : State) (nbits w : Nat) : State :=
  (s.placeBytes s.pc.toNat (tableBytes nbits w)).setStat .aok

end Sys2Proof.Machine
end

