-- ==== Sys2Proof/Machine/Caller.lean ====
section
/-! DEFINITION. The caller's operations before and after a run: Load, Reset, Run (70_reset_and_hazards.md R190 to R193, R201); Observe is reading the state. -/

namespace Sys2Proof.Machine

/-- `Load`: the caller writes one byte of the memory; outside the memory it must not, and the model refuses
(70_reset_and_hazards.md R191, R201; log entry 11). -/
def callerLoad (a : Nat) (b : Byte) (s : State) : Result :=
  if a < s.memMax then .next (s.setMem (s.mem.writeByte a b)) else .refused (.loadOutsideMemory a)

/-- `Load` of a run of bytes at an offset, as the Encoder's output is placed (70_reset_and_hazards.md R191). -/
def callerLoadBytes (a : Nat) : List Byte → State → Result
  | [], s => .next s
  | b :: rest, s =>
    match callerLoad a b s with
    | .next t => callerLoadBytes (a + 1) rest t
    | .fault f => .fault f
    | .refused r => .refused r

/-- `Reset(ENTRY)`: status AOK, pc ENTRY, SP MEM_MAX, memory as it was; the other registers and the flags get the
unspecified values given (70_reset_and_hazards.md R190). -/
def callerReset (entry : Word) (regs : Vector Word 15) (flags : Flags) (s : State) : State :=
  State.resetWith
    { memMax := s.memMax, entry, regs, zf := flags.zf, sf := flags.sf, of := flags.of, image := s.mem }

/-- `Run` under fuel: steps while the status is AOK (60_exceptions.md R187; 70_reset_and_hazards.md R192, R196).
The caller has no move in between (R201). -/
def callerRun : Nat → State → Result
  | 0, s => .next s
  | fuel + 1, s =>
    match s.stat with
    | .aok =>
      match step s with
      | .next t => callerRun fuel t
      | .fault f => .fault f
      | .refused r => .refused r
    | _ => .next s

end Sys2Proof.Machine
end

