-- ==== Sys2Proof/Safety.lean ====
section
/-! DEFINITION. What counts as a sound state and a finished run, and the words the statements use for what an instruction leaves unchanged. -/

namespace Sys2Proof.Machine

/-- Every listed cell of the memory lies inside it. -/
abbrev Memory.within (m : Memory) (capacity : Nat) : Prop := ∀ c ∈ m, c.1 < capacity

/-- The invariant of the machine: the capacity is one 00_scope.md R4 allows, and the memory is in canonical form
and lists nothing outside itself. -/
abbrev State.Inv (s : State) : Prop :=
  (1 ≤ s.memMax ∧ s.memMax ≤ 2 ^ 63 - 1) ∧ s.mem.wf ∧ s.mem.within s.memMax

/-- The parameters 00_scope.md R4 allows a machine to be launched with. -/
abbrev validConfig (c : Config) : Prop :=
  (1 ≤ c.memMax ∧ c.memMax ≤ 2 ^ 63 - 1) ∧ Memory.wf c.image ∧ Memory.within c.image c.memMax

/-- A run has ended (70_reset_and_hazards.md R195). -/
abbrev State.terminal (s : State) : Prop := s.stat ≠ .aok

/-- A run has ended with success (70_reset_and_hazards.md R195). -/
abbrev State.succeeded (s : State) : Prop := s.stat = .hlt

/-- Registers other than the listed ones hold in `t` what they hold in `s`. -/
def State.sameRegsBut (s t : State) (changed : List Reg) : Prop :=
  ∀ r, r ∉ changed → t.readReg r = s.readReg r

/-- The capacity and every byte of memory are in `t` what they are in `s`. -/
def State.sameMemory (s t : State) : Prop :=
  t.memMax = s.memMax ∧ ∀ a, t.mem.readByte a = s.mem.readByte a

/-- The capacity and every byte of memory outside `start .. start + n - 1` are in `t` what they are in `s`. -/
def State.sameMemoryOutside (s t : State) (start n : Nat) : Prop :=
  t.memMax = s.memMax ∧ ∀ a, a < start ∨ start + n ≤ a → t.mem.readByte a = s.mem.readByte a

/-- `t` differs from `s` at most in pc and the listed registers. -/
def State.onlyRegs (s t : State) (changed : List Reg) : Prop :=
  s.sameRegsBut t changed ∧ t.flags = s.flags ∧ t.stat = s.stat ∧ s.sameMemory t

/-- `t` differs from `s` at most in pc, the listed registers and the eight bytes at `start`. -/
def State.onlyRegsAndWord (s t : State) (changed : List Reg) (start : Nat) : Prop :=
  s.sameRegsBut t changed ∧ t.flags = s.flags ∧ t.stat = s.stat ∧ s.sameMemoryOutside t start 8

/-- The same state but for OF. -/
def State.withOf (s : State) (o : Bool) : State := s.setFlags { s.flags with of := o }

/-- The registers an instruction may write: the writes column of the table in 10_state.md R25. -/
def writtenRegs : Instr → List Reg
  | .halt | .nop => []
  | .rrmovq _ b | .cmovle _ b | .cmovl _ b | .cmove _ b | .cmovne _ b | .cmovge _ b | .cmovg _ b => [b]
  | .irmovq b _ => [b]
  | .rmmovq _ _ _ => []
  | .mrmovq a _ _ => [a]
  | .addq _ b | .subq _ b | .andq _ b | .xorq _ b => [b]
  | .jmp _ | .jle _ | .jl _ | .je _ | .jne _ | .jge _ | .jg _ => []
  | .call _ | .ret | .pushq _ => [spId]
  | .popq a => [spId, a]

/-- The bytes stand at pc, all of them inside the memory. -/
abbrev State.codeAtPc (s : State) (bytes : List Byte) : Prop :=
  s.inBounds s.pc bytes.length = true ∧ s.mem.readBytes s.pc.toNat bytes.length = bytes

end Sys2Proof.Machine
end

