-- ==== Sys2Proof/Certificates/Slice0/Obligations.lean ====
section
/-! DEFINITION. The statements for the provers, from the rules of spec/. A docstring names the rule a statement is
taken from, and the log entry or the spec's decision of every clause that rests on one. SP is register 4 in every
statement that names it: decision D2, log entry 10, PRESUMED. -/

open Sys2Proof Sys2Proof.Machine

/-! ### Shapes several statements share -/

/-- What a conditional move with opcode byte `b` and condition `c` does: its encoding, the copy or none, pc + 2
either way, nothing else. -/
def Sys2Proof.Claims.conditionalMove (b : Byte) (mk : Reg → Reg → Instr) (c : Flags → Prop) : Prop :=
  (∀ rA rB, encode (mk rA rB) = [b, rA.toNibble ++ rB.toNibble]) ∧
  ∀ (rA rB : Reg) (s : State), ∃ t, exec (mk rA rB) s = .next t ∧
    (c s.flags → t.readReg rB = s.readReg rA) ∧ (¬ c s.flags → t.readReg rB = s.readReg rB) ∧
    t.pc = s.pc + 2 ∧ s.onlyRegs t [rB]

/-- What a conditional jump with opcode byte `b` and condition `c` does: its encoding, pc to the destination or on
by 9, nothing else. -/
def Sys2Proof.Claims.conditionalJump (b : Byte) (mk : Word → Instr) (c : Flags → Prop) : Prop :=
  (∀ dest, encode (mk dest) = b :: constBytes dest) ∧
  ∀ (dest : Word) (s : State), ∃ t, exec (mk dest) s = .next t ∧
    (c s.flags → t.pc = dest) ∧ (¬ c s.flags → t.pc = s.pc + 9) ∧ s.onlyRegs t []

/-- What an ALU instruction with opcode byte `b` and result `f a b` does: encoding, result, ZF and SF from the
result, OF as `ovf` says, pc + 2, nothing else. -/
def Sys2Proof.Claims.alu (b : Byte) (mk : Reg → Reg → Instr) (f : Word → Word → Word)
    (ovf : Word → Word → Prop) : Prop :=
  (∀ rA rB, encode (mk rA rB) = [b, rA.toNibble ++ rB.toNibble]) ∧
  ∀ (rA rB : Reg) (s : State), ∃ t, exec (mk rA rB) s = .next t ∧
    t.readReg rB = f (s.readReg rA) (s.readReg rB) ∧
    (t.flags.zf = true ↔ t.readReg rB = 0) ∧
    (t.flags.sf = true ↔ (t.readReg rB).toInt < 0) ∧
    (t.flags.of = true ↔ ovf (s.readReg rA) (s.readReg rB)) ∧
    t.pc = s.pc + 2 ∧ s.sameRegsBut t [rB] ∧ t.stat = s.stat ∧ s.sameMemory t

/-- An integer outside the 64-bit signed range (43_alu.md R140). -/
abbrev Sys2Proof.Claims.outOfRange (n : Int) : Prop := n < -2 ^ 63 ∨ 2 ^ 63 - 1 < n

/-- The eight bytes at `a` hold the word `v`, most significant byte at the lowest address. -/
abbrev Sys2Proof.Claims.wordAt (s : State) (a : Nat) (v : Word) : Prop :=
  ∀ k < 8, s.mem.readByte (a + k) = v.extractLsb' (56 - 8 * k) 8

/-! ### Decoding and encoding -/

/-- 60_exceptions.md R187, 30_encoding.md R90: when bytes in bounds at pc decode to an instruction, a running
engine's step is that instruction's meaning. Step adds nothing around exec: pc and the status are exec's. The bounds
check is D8, and that pc may be any address D7 (log entries 13, 23). -/
def Obligations.StepRunsDecodedInstruction : Prop :=
  ∀ (s : State) (n : Nat) (i : Instr) (rest : List Byte),
    s.stat = .aok → s.inBounds s.pc n = true → decode (s.mem.readBytes s.pc.toNat n) = .instr i rest →
      i.WellFormed ∧ step s = exec i s

/-- Words written out from the encodings of the spec (41_moves.md, 42_memory_moves.md, 43_alu.md, 44_jumps.md,
45_call_ret.md, 46_stack.md, examples; 95_test_vectors.md S1, V-D2, V-D4, V-D6, V-D1). The names of the registers
are decision D2 (log entry 10). -/
def Obligations.KnownWordsDecode : Prop :=
  decode [0x00] = .instr .halt [] ∧
  decode [0x10] = .instr .nop [] ∧
  decode [0x20, 0x73] = .instr (.rrmovq .rdi .rbx) [] ∧
  decode [0x30, 0xFA, 0, 0, 0, 0, 0, 0, 0, 0] = .instr (.irmovq .r10 0) [] ∧
  decode [0x40, 0x03, 0, 0, 0, 0, 0, 0, 0, 8] = .instr (.rmmovq .rax .rbx 8) [] ∧
  decode [0x60, 0xAB] = .instr (.addq .r10 .r11) [] ∧
  decode [0x74, 0, 0, 0, 0, 0, 0, 0, 0x20] = .instr (.jne 0x20) [] ∧
  decode [0x90] = .instr .ret [] ∧
  decode [0xA0, 0x3F] = .instr (.pushq .rbx) [] ∧
  (∀ i rest, decode [0x20, 0xF0] ≠ .instr i rest) ∧
  (∀ i rest, decode [0x30, 0x00, 0, 0, 0, 0, 0, 0, 0, 1] ≠ .instr i rest) ∧
  (∀ i rest, decode [0xA0, 0x30] ≠ .instr i rest) ∧
  (∀ i rest, decode [0x01] ≠ .instr i rest)

/-- 30_encoding.md R97 (a), section 5: decoding the encoding of any instruction, whatever bytes follow it, gives
that instruction and leaves those bytes. -/
def Obligations.DecodeEncodeRoundTrip : Prop :=
  ∀ (i : Instr) (rest : List Byte), i.WellFormed ∧ decode (encode i ++ rest) = .instr i rest

/-- 30_encoding.md R97 (a), the converse that section 5 derives from the strict register fields (decisions D9,
D10): bytes that decode are the canonical encoding of what they decode to. -/
def Obligations.DecodedBytesAreCanonical : Prop :=
  ∀ (bytes : List Byte) (i : Instr) (rest : List Byte),
    decode bytes = .instr i rest → bytes = encode i ++ rest

/-- 30_encoding.md section 4 (decisions D9, D10): fetched fields stand for an instruction exactly when both
register fields are legal for the opcode. -/
def Obligations.DecodeAcceptsExactlyLegalFields : Prop :=
  ∀ f : Fields, f.toInstr?.isSome = f.wellFormed

/-- 30_encoding.md R80: the four formats, byte by byte, for every instruction. -/
def Obligations.FormatsLayOutBytes : Prop :=
  (encode .halt = [0x00] ∧ encode .nop = [0x10] ∧ encode .ret = [0x90]) ∧
  (∀ rA rB : Reg, let p : Byte := rA.toNibble ++ rB.toNibble
    encode (.rrmovq rA rB) = [0x20, p] ∧ encode (.cmovle rA rB) = [0x21, p] ∧ encode (.cmovl rA rB) = [0x22, p] ∧
    encode (.cmove rA rB) = [0x23, p] ∧ encode (.cmovne rA rB) = [0x24, p] ∧ encode (.cmovge rA rB) = [0x25, p] ∧
    encode (.cmovg rA rB) = [0x26, p] ∧ encode (.addq rA rB) = [0x60, p] ∧ encode (.subq rA rB) = [0x61, p] ∧
    encode (.andq rA rB) = [0x62, p] ∧ encode (.xorq rA rB) = [0x63, p]) ∧
  (∀ rA : Reg, let p : Byte := rA.toNibble ++ (0xF : Nibble)
    encode (.pushq rA) = [0xA0, p] ∧ encode (.popq rA) = [0xB0, p]) ∧
  (∀ (rA rB : Reg) (v : Word),
    encode (.irmovq rB v) =
      [0x30, (0xF : Nibble) ++ rB.toNibble, v.extractLsb' 56 8, v.extractLsb' 48 8, v.extractLsb' 40 8,
        v.extractLsb' 32 8, v.extractLsb' 24 8, v.extractLsb' 16 8, v.extractLsb' 8 8, v.extractLsb' 0 8] ∧
    encode (.rmmovq rA rB v) =
      [0x40, rA.toNibble ++ rB.toNibble, v.extractLsb' 56 8, v.extractLsb' 48 8, v.extractLsb' 40 8,
        v.extractLsb' 32 8, v.extractLsb' 24 8, v.extractLsb' 16 8, v.extractLsb' 8 8, v.extractLsb' 0 8] ∧
    encode (.mrmovq rA rB v) =
      [0x50, rA.toNibble ++ rB.toNibble, v.extractLsb' 56 8, v.extractLsb' 48 8, v.extractLsb' 40 8,
        v.extractLsb' 32 8, v.extractLsb' 24 8, v.extractLsb' 16 8, v.extractLsb' 8 8, v.extractLsb' 0 8]) ∧
  (∀ v : Word, let c := [v.extractLsb' 56 8, v.extractLsb' 48 8, v.extractLsb' 40 8, v.extractLsb' 32 8,
      v.extractLsb' 24 8, v.extractLsb' 16 8, v.extractLsb' 8 8, v.extractLsb' 0 8]
    encode (.jmp v) = 0x70 :: c ∧ encode (.jle v) = 0x71 :: c ∧ encode (.jl v) = 0x72 :: c ∧
    encode (.je v) = 0x73 :: c ∧ encode (.jne v) = 0x74 :: c ∧ encode (.jge v) = 0x75 :: c ∧
    encode (.jg v) = 0x76 :: c ∧ encode (.call v) = 0x80 :: c)

/-- 30_encoding.md R87: the opcode byte alone fixes the length; a byte of no row has none. -/
def Obligations.OpcodeAloneFixesLength : Prop :=
  ∀ b : Byte, (Opcode.ofByte? b).map Opcode.length =
    if b ∈ [0x00, 0x10, 0x90] then some 1
    else if (0x20 ≤ b ∧ b ≤ 0x26) ∨ (0x60 ≤ b ∧ b ≤ 0x63) ∨ b = 0xA0 ∨ b = 0xB0 then some 2
    else if (0x70 ≤ b ∧ b ≤ 0x76) ∨ b = 0x80 then some 9
    else if b ∈ [0x30, 0x40, 0x50] then some 10
    else none

/-- 30_encoding.md section 2: a constant is its eight bytes in increasing address order, the first most
significant, and it is the immediate of `irmovq`, the displacement of `rmmovq` and `mrmovq` and the destination
of `jmp` and `call`. -/
def Obligations.ConstantsAreBigEndian : Prop :=
  ∀ c0 c1 c2 c3 c4 c5 c6 c7 : Byte, ∃ v : Word,
    v.toNat = ((((((c0.toNat * 256 + c1.toNat) * 256 + c2.toNat) * 256 + c3.toNat) * 256 + c4.toNat) * 256 +
      c5.toNat) * 256 + c6.toNat) * 256 + c7.toNat ∧
    ∀ (rA rB : Reg) (rest : List Byte),
      decode (0x30 :: ((0xF : Nibble) ++ rB.toNibble) :: c0 :: c1 :: c2 :: c3 :: c4 :: c5 :: c6 :: c7 :: rest) =
        .instr (.irmovq rB v) rest ∧
      decode (0x40 :: (rA.toNibble ++ rB.toNibble) :: c0 :: c1 :: c2 :: c3 :: c4 :: c5 :: c6 :: c7 :: rest) =
        .instr (.rmmovq rA rB v) rest ∧
      decode (0x50 :: (rA.toNibble ++ rB.toNibble) :: c0 :: c1 :: c2 :: c3 :: c4 :: c5 :: c6 :: c7 :: rest) =
        .instr (.mrmovq rA rB v) rest ∧
      decode (0x70 :: c0 :: c1 :: c2 :: c3 :: c4 :: c5 :: c6 :: c7 :: rest) = .instr (.jmp v) rest ∧
      decode (0x80 :: c0 :: c1 :: c2 :: c3 :: c4 :: c5 :: c6 :: c7 :: rest) = .instr (.call v) rest

/-- 30_encoding.md R92, section 4 (the bounds check is decision D8, log entry 13): fetch looks at pc, the capacity and
the ten bytes from pc on, and at nothing else. -/
def Obligations.FetchDependsOnlyOnCode : Prop :=
  ∀ s t : State, t.pc = s.pc → t.memMax = s.memMax →
    (∀ k < 10, t.mem.readByte (s.pc.toNat + k) = s.mem.readByte (s.pc.toNat + k)) → t.fetch = s.fetch

/-! ### Stops -/

/-- 30_encoding.md section 4, 60_exceptions.md section 4, 95_test_vectors.md S2: an opcode byte that is none of the 27
stops the engine with INS; no byte after it is looked at, so that it does so at the last byte of memory too (decision
D14; log entry 17). That pc stays and nothing else changes is decision D15 (log entry 18). -/
def Obligations.InvalidOpcodeStops : Prop :=
  ∀ s : State, s.stat = .aok → 0 ≤ s.pc.toInt → s.pc.toInt < s.memMax →
    s.mem.readByte s.pc.toNat ∉ ([0x00, 0x10, 0x20, 0x21, 0x22, 0x23, 0x24, 0x25, 0x26, 0x30, 0x40, 0x50, 0x60,
      0x61, 0x62, 0x63, 0x70, 0x71, 0x72, 0x73, 0x74, 0x75, 0x76, 0x80, 0x90, 0xA0, 0xB0] : List Byte) →
    step s = .next { s with stat := .ins }

/-- 60_exceptions.md sections 1 and 3 (decisions D8, D14, D15, D19; log entries 13, 17, 18, 15): a pc outside the
memory stops the engine with ADR at the fetch, pc kept. -/
def Obligations.PcOutOfMemoryStops : Prop :=
  ∀ s : State, s.stat = .aok → (s.pc.toInt < 0 ∨ (s.memMax : Int) ≤ s.pc.toInt) →
    step s = .next { s with stat := .adr }

/-- 60_exceptions.md sections 1 and 3 (decisions D8, D14, D15; log entries 13, 17, 18): a valid opcode whose bytes
run past the end of the memory stops the engine with ADR, whatever its register fields are. -/
def Obligations.TruncatedInstructionStops : Prop :=
  ∀ (s : State) (op : Opcode), s.stat = .aok → 0 ≤ s.pc.toInt → s.pc.toInt < s.memMax →
    s.mem.readByte s.pc.toNat = op.toByte → (s.memMax : Int) < s.pc.toInt + op.length →
    step s = .next { s with stat := .adr }

/-- 30_encoding.md section 4 (decisions D9, D10, D14, D15; log entries 9, 17, 18): an instruction that fits in memory
and has an illegal register field stops the engine with INS, whatever the flags. The roles are the columns of the
opcode map. -/
def Obligations.IllegalRegisterFieldStops : Prop :=
  ∀ (s : State) (op : Opcode), s.stat = .aok → 0 ≤ s.pc.toInt → s.pc.toInt + op.length ≤ s.memMax →
    s.mem.readByte s.pc.toNat = op.toByte →
    let p := s.mem.readByte (s.pc.toNat + 1)
    ((op.roleA = .register ∧ p.extractLsb' 4 4 = 0xF) ∨ (op.roleA = .sentinel ∧ p.extractLsb' 4 4 ≠ 0xF) ∨
      (op.roleB = .register ∧ p.extractLsb' 0 4 = 0xF) ∨ (op.roleB = .sentinel ∧ p.extractLsb' 0 4 ≠ 0xF)) →
    step s = .next { s with stat := .ins }

/-- 60_exceptions.md section 4 (decisions D15, D16; log entry 18): a step that ends in ADR or INS changed the
status alone; a step that ends in HLT ran the `halt` at pc, and pc is the address after it. -/
def Obligations.StopsArePrecise : Prop :=
  ∀ s t : State, step s = .next t →
    (t.stat = .adr ∨ t.stat = .ins → t = { s with stat := t.stat }) ∧
    (t.stat = .hlt → s.mem.readByte s.pc.toNat = 0x00 ∧ t = { s with pc := s.pc + 1, stat := .hlt })

/-- 70_reset_and_hazards.md section 4, 60_exceptions.md section 4 (decision D24; log entry 8): a stopped engine
takes no step, and a run from it ends at once where it is. -/
def Obligations.StoppedEngineTakesNoStep : Prop :=
  ∀ s : State, s.stat ≠ .aok → step s = .fault (.stopped s.stat) ∧ ∀ fuel, callerRun fuel s = .next s

/-- 00_scope.md section 5 (R11): a running engine always has a next state; no instruction faults or is refused.
That this covers illegal register fields and accesses out of bounds, which the source leaves open, rests on decisions
D8, D9, D10 (log entries 13, 9), and that a stop is a next state on log entry 7. -/
def Obligations.RunningEngineAlwaysSteps : Prop :=
  ∀ s : State, s.stat = .aok → ∃ t, step s = .next t

/-- 60_exceptions.md section 7: a run under any fuel ends in a state, and one that ends before its fuel is spent
is over: more fuel changes nothing (decision D24; log entry 8). That every step answers rests on D8, D9, D10 (log
entries 13, 9) and log entry 7. -/
def Obligations.RunsReachAState : Prop :=
  ∀ (fuel : Nat) (s : State), ∃ t, callerRun fuel s = .next t ∧
    (t.stat ≠ .aok → ∀ more, callerRun (fuel + more) s = .next t)

/-! ### Reset, the caller, the invariant -/

/-- Every step keeps the invariant: the capacity stays legal, the memory stays in canonical form and lists
nothing outside itself (20_memory.md section 1; log entries 1, 12; stores are bounds-checked, decision D8, log entry
13). -/
def Obligations.StepKeepsInvariant : Prop :=
  ∀ s t : State, s.Inv → step s = .next t → t.Inv

/-- The machine after reset meets the invariant, for the model's own parameters and for every legal choice of
them (log entries 1 to 5, 12). -/
def Obligations.ResetMeetsInvariant : Prop :=
  State.reset.Inv ∧ ∀ c : Config, validConfig c → (State.resetWith c).Inv

/-- 70_reset_and_hazards.md section 2: Load, Reset and Run keep the invariant (decisions D8, D22; log entries 13, 11,
12). -/
def Obligations.CallerKeepsInvariant : Prop :=
  (∀ s a b t, s.Inv → callerLoad a b s = .next t → t.Inv) ∧
  (∀ s entry regs flags, s.Inv → (callerReset entry regs flags s).Inv) ∧
  (∀ fuel s t, s.Inv → callerRun fuel s = .next t → t.Inv)

/-- 70_reset_and_hazards.md section 1, 10_state.md section 7 (SP = MEM_MAX is decision D18, log entry 10; ENTRY, with
its default 0, is decision D21, log entry 5; the caller's operation is decision D22, log entry 11): what reset leaves,
for every value of the open parameters: status AOK, pc ENTRY, SP MEM_MAX, the other registers and the flags as given,
memory as it was. -/
def Obligations.ResetLeavesSpecValues : Prop :=
  (∀ c : Config, let s := State.resetWith c
    s.stat = .aok ∧ s.pc = c.entry ∧ s.sp = BitVec.ofNat 64 c.memMax ∧ s.memMax = c.memMax ∧ s.mem = c.image ∧
    s.flags = { zf := c.zf, sf := c.sf, of := c.of } ∧ ∀ r, r ≠ spId → s.readReg r = c.regs[r.index]) ∧
  (∀ (s : State) entry regs flags, let t := callerReset entry regs flags s
    t.stat = .aok ∧ t.pc = entry ∧ t.sp = BitVec.ofNat 64 s.memMax ∧ t.flags = flags ∧ s.sameMemory t ∧
    ∀ r, r ≠ spId → t.readReg r = regs[r.index]) ∧
  State.reset.pc = 0

/-- 70_reset_and_hazards.md section 2: a load inside the memory writes that byte and nothing else; one outside is
refused (U2, log entry 11). -/
def Obligations.LoadWritesInsideMemoryOnly : Prop :=
  ∀ (s : State) (a : Nat) (b : Byte),
    (a < s.memMax → ∃ t, callerLoad a b s = .next t ∧ t.mem.readByte a = b ∧
      (∀ x, x ≠ a → t.mem.readByte x = s.mem.readByte x) ∧
      t.regs = s.regs ∧ t.pc = s.pc ∧ t.flags = s.flags ∧ t.stat = s.stat ∧ t.memMax = s.memMax) ∧
    (s.memMax ≤ a → callerLoad a b s = .refused (.loadOutsideMemory a))

/-! ### The whole machine -/

/-- 10_state.md section 3: a step that changes a flag ran `addq`, `subq`, `andq` or `xorq`. It rests on decision
D15 (log entry 18) where another opcode stops with ADR or INS. -/
def Obligations.FlagsWrittenOnlyByAlu : Prop :=
  ∀ s t : State, step s = .next t → t.flags ≠ s.flags →
    s.mem.readByte s.pc.toNat ∈ ([0x60, 0x61, 0x62, 0x63] : List Byte)

/-- 10_state.md section 5: a step that changes a byte of memory ran `rmmovq`, `call` or `pushq`. -/
def Obligations.MemoryWrittenOnlyByStores : Prop :=
  ∀ (s t : State) (a : Nat), step s = .next t → t.mem.readByte a ≠ s.mem.readByte a →
    s.mem.readByte s.pc.toNat ∈ ([0x40, 0x80, 0xA0] : List Byte)

/-- 20_memory.md section 5 (decisions D2, D8, D19, D23; log entries 10, 13, 15, 16): no step changes a byte seven or
more places above the stack pointer, nor a byte outside the memory, nor the capacity. -/
def Obligations.StoreGuardProtectsStack : Prop :=
  ∀ s t : State, step s = .next t →
    t.memMax = s.memMax ∧
    ∀ a : Nat, s.sp.toInt + 7 ≤ a ∨ s.memMax ≤ a → t.mem.readByte a = s.mem.readByte a

/-- 10_state.md section 1, the writes column of its table: an instruction writes no register but those the table
names for it. That `mrmovq` writes `rA` and not `rB` is decision D12 (log entry 20, PRESUMED), that `subq` writes `rB`
D11 (log entry 19, PRESUMED), that SP is register 4 D2 (log entry 10, PRESUMED), and that one which stops
with ADR writes no other register either D15 (log entry 18). -/
def Obligations.OnlyListedRegistersAreWritten : Prop :=
  ∀ (i : Instr) (s t : State), exec i s = .next t → s.sameRegsBut t (writtenRegs i)

/-- 10_state.md section 3 (R31): OF has no effect on any later instruction: two runs that begin in states which
differ in OF alone end in states which differ in OF at most. -/
def Obligations.OverflowFlagIsNeverRead : Prop :=
  ∀ (fuel : Nat) (s t : State) (o : Bool), callerRun fuel s = .next t →
    ∃ o', callerRun fuel (s.withOf o) = .next (t.withOf o')

/-- 10_state.md section 2 (R28; the width of pc is decision D5, the range of MEM_MAX D1, the bounds
check D8; log entries 24, 1, 13): `valP` does not wrap, and stays inside the memory or at its end, for an
instruction that was fetched in a sound state. -/
def Obligations.SequentialPcNeverWraps : Prop :=
  ∀ (s : State) (n : Nat), s.Inv → s.inBounds s.pc n = true →
    (s.valP n).toInt = s.pc.toInt + n ∧ (s.valP n).toInt ≤ s.memMax

/-- 10_state.md section 1 (R20): the 15 registers are distinct cells, each holding any value written to it, and
`0xF` names none. -/
def Obligations.RegistersAreDistinctCells : Prop :=
  (∀ (s : State) (r q : Reg) (v : Word), (s.writeReg r v).readReg q = if q = r then v else s.readReg q) ∧
  (∀ r q : Reg, r.toNibble = q.toNibble → r = q) ∧
  ∀ n : Nibble, (∃ r : Reg, r.toNibble = n) ↔ n ≠ 0xF

/-- 20_memory.md sections 2 to 4 (bounds are decision D8, data byte order D6, no alignment D7; log entries 13, 14,
23): a load from
the address just stored to gives the value stored; in a sound state a load one byte higher sees it shifted by one
byte. -/
def Obligations.LoadSeesLastStore : Prop :=
  ∀ (s t : State) (a v : Word), s.memWrite8 a v = some t →
    t.memRead8 a = some v ∧
    (s.Inv → a.toInt + 9 ≤ s.memMax → t.memRead8 (a + 1) =
      some (v.extractLsb' 0 56 ++ s.mem.readByte (a.toNat + 8)))

/-- 20_memory.md section 8 (R70), 42_memory_moves.md (R132): a store that overwrites the instruction after it is
seen by the next fetch: if the stored word begins with the encoding of an instruction, the next step runs that
instruction. The byte order of the store is decision D6 (log entry 14); that it stores `rA` at `x[rB] + disp` is
decision D12 (log entry 20, PRESUMED), and that this sum wraps is D19 (log entry 15). -/
def Obligations.StoreIsSeenByNextFetch : Prop :=
  ∀ (s t : State) (rA rB : Reg) (disp : Word) (i : Instr), s.stat = .aok →
    exec (.rmmovq rA rB disp) s = .next t → t.stat = .aok → s.readReg rB + disp = s.pc + 10 →
    encode i = (constBytes (s.readReg rA)).take i.length → step t = exec i t

/-! ### halt, nop, moves -/

/-- 40_halt_nop.md (pc after `halt` is decision D16, log entry 18): `halt` is the byte 00, moves pc on by 1 and
stops the engine with HLT. -/
def Obligations.HaltStopsWithSuccess : Prop :=
  encode .halt = [0x00] ∧
  ∀ s : State, ∃ t, exec .halt s = .next t ∧ t.stat = .hlt ∧ t.pc = s.pc + 1 ∧
    s.sameRegsBut t [] ∧ t.flags = s.flags ∧ s.sameMemory t

/-- 40_halt_nop.md R111: `nop` is the byte 10 and moves pc on by 1; nothing else changes. -/
def Obligations.NopOnlyAdvancesPc : Prop :=
  encode .nop = [0x10] ∧
  ∀ s : State, ∃ t, exec .nop s = .next t ∧ t.pc = s.pc + 1 ∧ s.onlyRegs t []

/-- 41_moves.md R115: the function codes 0 to 6 and their predicates on ZF and SF; codes 7 to 15 have none, their
opcodes being invalid; OF takes no part. -/
def Obligations.ConditionsReadZfAndSf : Prop :=
  (∀ f : Flags,
    (∃ c, Cond.ofCode? 0 = some c ∧ c.holds f = true) ∧
    (∃ c, Cond.ofCode? 1 = some c ∧ (c.holds f = true ↔ f.sf = true ∨ f.zf = true)) ∧
    (∃ c, Cond.ofCode? 2 = some c ∧ (c.holds f = true ↔ f.sf = true)) ∧
    (∃ c, Cond.ofCode? 3 = some c ∧ (c.holds f = true ↔ f.zf = true)) ∧
    (∃ c, Cond.ofCode? 4 = some c ∧ (c.holds f = true ↔ f.zf = false)) ∧
    (∃ c, Cond.ofCode? 5 = some c ∧ (c.holds f = true ↔ f.sf = false)) ∧
    (∃ c, Cond.ofCode? 6 = some c ∧ (c.holds f = true ↔ f.sf = false ∧ f.zf = false))) ∧
  (∀ (c : Cond) (f : Flags) (o : Bool), c.holds { f with of := o } = c.holds f) ∧
  ∀ fn : Nibble, 7 ≤ fn.toNat → Cond.ofCode? fn = none ∧
    Opcode.ofByte? ((2 : Nibble) ++ fn) = none ∧ Opcode.ofByte? ((7 : Nibble) ++ fn) = none

/-- 41_moves.md section 2: `rrmovq` copies `rA` to `rB` and moves pc on by 2; nothing else changes. -/
def Obligations.RrmovqCopiesRegister : Prop :=
  (∀ rA rB : Reg, encode (.rrmovq rA rB) = [0x20, rA.toNibble ++ rB.toNibble]) ∧
  ∀ (rA rB : Reg) (s : State), ∃ t, exec (.rrmovq rA rB) s = .next t ∧
    t.readReg rB = s.readReg rA ∧ t.pc = s.pc + 2 ∧ s.onlyRegs t [rB]

/-- 41_moves.md sections 1 and 2: the six conditional moves. -/
def Obligations.ConditionalMovesCopyWhenTrue : Prop :=
  Claims.conditionalMove 0x21 .cmovle (fun f => f.sf = true ∨ f.zf = true) ∧
  Claims.conditionalMove 0x22 .cmovl (fun f => f.sf = true) ∧
  Claims.conditionalMove 0x23 .cmove (fun f => f.zf = true) ∧
  Claims.conditionalMove 0x24 .cmovne (fun f => f.zf = false) ∧
  Claims.conditionalMove 0x25 .cmovge (fun f => f.sf = false) ∧
  Claims.conditionalMove 0x26 .cmovg (fun f => f.sf = false ∧ f.zf = false)

/-- 41_moves.md section 3: `irmovq` loads the constant into `rB` and moves pc on by 10; nothing else changes. -/
def Obligations.IrmovqLoadsConstant : Prop :=
  ∀ (rB : Reg) (imm : Word) (s : State), ∃ t, exec (.irmovq rB imm) s = .next t ∧
    t.readReg rB = imm ∧ t.pc = s.pc + 10 ∧ s.onlyRegs t [rB]

/-! ### Memory moves -/

/-- 42_memory_moves.md, 20_memory.md section 5 (base register D12, byte order D6, signed checks D19, extent of the
guard D23, no alignment D7, bounds D8; log entries 20, 14, 15, 16, 23, 13): a store whose lowest address is below SP
and that lies inside the memory writes `rA` at `x[rB] + disp`, most significant byte first, and moves pc on by 10; no
register, no flag and no other byte changes. A store at SP - 7 to SP - 1 succeeds too, over bytes of the stack (D23,
U7; log entry 16). -/
def Obligations.RmmovqStoresBelowStackPointer : Prop :=
  ∀ (rA rB : Reg) (disp : Word) (s : State),
    let ea := s.effectiveAddress rB disp
    ea = s.readReg rB + disp ∧
    (ea.toInt < s.sp.toInt → 0 ≤ ea.toInt → ea.toInt + 8 ≤ s.memMax →
      ∃ t, exec (.rmmovq rA rB disp) s = .next t ∧ Claims.wordAt t ea.toNat (s.readReg rA) ∧
        t.pc = s.pc + 10 ∧ s.onlyRegsAndWord t [] ea.toNat)

/-- 42_memory_moves.md, 20_memory.md section 5 (D8, D12, D15, D19, D23; log entries 13, 15, 16, 18, 20): a store at
or above SP, or not wholly inside the memory, stops the engine with ADR and changes nothing else. -/
def Obligations.RmmovqStopsAtStackPointer : Prop :=
  ∀ (rA rB : Reg) (disp : Word) (s : State),
    let ea := s.readReg rB + disp
    (s.sp.toInt ≤ ea.toInt ∨ ea.toInt < 0 ∨ (s.memMax : Int) < ea.toInt + 8) →
    exec (.rmmovq rA rB disp) s = .next { s with stat := .adr }

/-- 42_memory_moves.md, 20_memory.md (D6, D7, D8, D12, D19; log entries 14, 23, 13, 20, 15): a load wholly inside the
memory gives `rA` the word at `x[rB] + disp`, above SP as well as below, and moves pc on by 10; nothing else changes.
The address is the sum modulo 2^64, judged after it has wrapped (D19, log entry 15, DEDUCED): a sum that wraps into
the memory loads. -/
def Obligations.MrmovqLoadsWord : Prop :=
  ∀ (rA rB : Reg) (disp : Word) (s : State),
    let ea := s.readReg rB + disp
    0 ≤ ea.toInt → ea.toInt + 8 ≤ s.memMax →
      ∃ t, exec (.mrmovq rA rB disp) s = .next t ∧ Claims.wordAt s ea.toNat (t.readReg rA) ∧
        t.pc = s.pc + 10 ∧ s.onlyRegs t [rA]

/-- 42_memory_moves.md (D8, D12, D15, D19; log entries 13, 20, 18, 15): a load not wholly inside the memory, its
address the wrapped sum under the signed reading, stops the engine with ADR and changes nothing else. -/
def Obligations.MrmovqStopsOutOfBounds : Prop :=
  ∀ (rA rB : Reg) (disp : Word) (s : State),
    let ea := s.readReg rB + disp
    (ea.toInt < 0 ∨ (s.memMax : Int) < ea.toInt + 8) →
    exec (.mrmovq rA rB disp) s = .next { s with stat := .adr }

/-! ### ALU -/

/-- 43_alu.md: `addq` writes the wrapped sum; OF is signed overflow of the sum as integers. -/
def Obligations.AddqAddsAndSetsFlags : Prop :=
  Claims.alu 0x60 .addq (fun a b => BitVec.ofInt 64 (b.toInt + a.toInt))
    (fun a b => Claims.outOfRange (b.toInt + a.toInt))

/-- 43_alu.md (operand order and OF are decision D11, log entry 19): `subq` writes `rB - rA` wrapped; OF is signed
overflow of that difference. -/
def Obligations.SubqSubtractsAndSetsFlags : Prop :=
  Claims.alu 0x61 .subq (fun a b => BitVec.ofInt 64 (b.toInt - a.toInt))
    (fun a b => Claims.outOfRange (b.toInt - a.toInt))

/-- 43_alu.md (OF = 0 is decision D13, log entry 21): `andq` writes the bitwise and and clears OF. -/
def Obligations.AndqMasksAndClearsOverflow : Prop :=
  Claims.alu 0x62 .andq (fun a b => b &&& a) (fun _ _ => False)

/-- 43_alu.md (OF = 0 is decision D13, log entry 21): `xorq` writes the bitwise exclusive or and clears OF. -/
def Obligations.XorqTogglesAndClearsOverflow : Prop :=
  Claims.alu 0x63 .xorq (fun a b => b ^^^ a) (fun _ _ => False)

/-! ### Jumps, calls, stack -/

/-- 44_jumps.md: `jmp` sets pc to its destination, unchecked, and changes nothing else; one that jumps to itself
runs for ever. That pc holds any 64-bit destination is decision D5 (log entry 24). -/
def Obligations.JmpSetsPc : Prop :=
  (∀ dest : Word, encode (.jmp dest) = 0x70 :: constBytes dest) ∧
  (∀ (dest : Word) (s : State), ∃ t, exec (.jmp dest) s = .next t ∧ t.pc = dest ∧ s.onlyRegs t []) ∧
  ∀ (s : State) (fuel : Nat), s.stat = .aok → s.codeAtPc (encode (.jmp s.pc)) → callerRun fuel s = .next s

/-- 44_jumps.md, 41_moves.md section 1: the six conditional jumps. That pc holds any 64-bit destination is decision
D5 (log entry 24). -/
def Obligations.ConditionalJumpsGoWhenTrue : Prop :=
  Claims.conditionalJump 0x71 .jle (fun f => f.sf = true ∨ f.zf = true) ∧
  Claims.conditionalJump 0x72 .jl (fun f => f.sf = true) ∧
  Claims.conditionalJump 0x73 .je (fun f => f.zf = true) ∧
  Claims.conditionalJump 0x74 .jne (fun f => f.zf = false) ∧
  Claims.conditionalJump 0x75 .jge (fun f => f.sf = false) ∧
  Claims.conditionalJump 0x76 .jg (fun f => f.sf = false ∧ f.zf = false)

/-- 45_call_ret.md (D5, D6, D7, D8, D23; log entries 24, 14, 23, 13, 16): with SP in `8 .. MEM_MAX`, `call` stores pc
+ 9 at SP - 8, moves SP there and pc to the destination; nothing else changes. -/
def Obligations.CallPushesReturnAddress : Prop :=
  ∀ (dest : Word) (s : State),
    s.pushAddress = s.sp - 8 ∧
    (8 ≤ s.sp.toInt → s.sp.toInt ≤ s.memMax →
      ∃ t, exec (.call dest) s = .next t ∧ Claims.wordAt t s.pushAddress.toNat (s.pc + 9) ∧
        t.sp = s.sp - 8 ∧ t.pc = dest ∧ s.onlyRegsAndWord t [spId] s.pushAddress.toNat)

/-- 46_stack.md (D6, D7, D8, D17, D23; log entries 14, 23, 13, 22, 16): with SP in `8 .. MEM_MAX`, `pushq` stores what
`rA` held before the instruction at SP - 8, SP itself included, and moves SP there and pc on by 2; nothing else
changes. -/
def Obligations.PushqStoresOldValue : Prop :=
  ∀ (rA : Reg) (s : State),
    s.pushAddress = s.sp - 8 ∧
    (8 ≤ s.sp.toInt → s.sp.toInt ≤ s.memMax →
      ∃ t, exec (.pushq rA) s = .next t ∧ Claims.wordAt t s.pushAddress.toNat (s.readReg rA) ∧
        t.sp = s.sp - 8 ∧ t.pc = s.pc + 2 ∧ s.onlyRegsAndWord t [spId] s.pushAddress.toNat)

/-- 45_call_ret.md, 46_stack.md, 20_memory.md section 5 (D8, D15, D19; log entries 13, 18, 15): with SP outside
`8 .. MEM_MAX`, `call` and `pushq` stop the engine with ADR and change nothing else. -/
def Obligations.PushesStopWithoutRoom : Prop :=
  ∀ s : State, (s.sp.toInt < 8 ∨ (s.memMax : Int) < s.sp.toInt) →
    (∀ dest : Word, exec (.call dest) s = .next { s with stat := .adr }) ∧
    ∀ rA : Reg, exec (.pushq rA) s = .next { s with stat := .adr }

/-- 45_call_ret.md (D5, D6, D7, D8; log entries 24, 14, 23, 13): with the eight bytes at SP inside the memory, `ret`
sets pc to the word at SP, unchecked, and adds 8 to SP; nothing else changes. -/
def Obligations.RetPopsPc : Prop :=
  ∀ s : State, 0 ≤ s.sp.toInt → s.sp.toInt + 8 ≤ s.memMax →
    ∃ t, exec .ret s = .next t ∧ Claims.wordAt s s.sp.toNat t.pc ∧ t.sp = s.sp + 8 ∧ s.onlyRegs t [spId]

/-- 46_stack.md (D6, D7, D8, D17; log entries 14, 23, 13, 22): with the eight bytes at SP inside the memory, `popq`
gives `rA` the word at SP, adds 8 to SP unless `rA` is SP, and moves pc on by 2; nothing else changes. -/
def Obligations.PopqLoadsAndWinsOverSp : Prop :=
  ∀ (rA : Reg) (s : State), 0 ≤ s.sp.toInt → s.sp.toInt + 8 ≤ s.memMax →
    ∃ t, exec (.popq rA) s = .next t ∧ Claims.wordAt s s.sp.toNat (t.readReg rA) ∧
      (rA ≠ spId → t.sp = s.sp + 8) ∧ t.pc = s.pc + 2 ∧ s.onlyRegs t [spId, rA]

/-- 45_call_ret.md, 46_stack.md (D8, D15, D19; log entries 13, 18, 15): with the eight bytes at SP not all inside the
memory, `ret` and `popq` stop the engine with ADR and change nothing else. -/
def Obligations.PopsStopOutOfBounds : Prop :=
  ∀ s : State, (s.sp.toInt < 0 ∨ (s.memMax : Int) < s.sp.toInt + 8) →
    exec .ret s = .next { s with stat := .adr } ∧
    ∀ rA : Reg, exec (.popq rA) s = .next { s with stat := .adr }

/-- 46_stack.md, the source's push and pop property (D7, D8, D23; log entries 23, 13, 16): `pushq r` then `popq q`
gives `q` the value of `r` and, unless `q` is SP, restores SP. For `r` = SP the value pushed is the one SP held before
the push, and for `q` = SP the loaded word stays in SP (decision D17; log entry 22, PRESUMED). -/
def Obligations.PopRestoresPush : Prop :=
  ∀ (r q : Reg) (s : State), 8 ≤ s.sp.toInt → s.sp.toInt ≤ s.memMax →
    ∃ t u, exec (.pushq r) s = .next t ∧ exec (.popq q) t = .next u ∧
      u.readReg q = s.readReg r ∧ (q ≠ spId → u.sp = s.sp) ∧ u.pc = s.pc + 4

/-- 45_call_ret.md (D5, D7, D8, D23; log entries 24, 23, 13, 16): a `ret` right after a `call` comes back to the
instruction after the `call` with SP restored. -/
def Obligations.RetUndoesCall : Prop :=
  ∀ (dest : Word) (s : State), 8 ≤ s.sp.toInt → s.sp.toInt ≤ s.memMax →
    ∃ t u, exec (.call dest) s = .next t ∧ exec .ret t = .next u ∧ u.pc = s.pc + 9 ∧ s.sameRegsBut u []
end

