-- ==== Sys2Proof/Laws/Decode.lean ====
section
/-! SUPPORT. The small inverses the decoder and the encoder are made of. -/

namespace Sys2Proof

@[simp] theorem Opcode.ofByte?_toByte (op : Opcode) : Opcode.ofByte? op.toByte = some op := by
  cases op <;> rfl

/-- An opcode byte is recognised only as the opcode it encodes. -/
theorem Opcode.toByte_of_ofByte? {b : Byte} {op : Opcode} (h : Opcode.ofByte? b = some op) : op.toByte = b := by
  revert op
  revert b
  decide

@[simp] theorem Reg.ofNibble?_toNibble (r : Reg) : Reg.ofNibble? r.toNibble = some r := by
  cases r <;> rfl

/-- An identifier names only the register it belongs to. -/
theorem Reg.toNibble_of_ofNibble? {n : Nibble} {r : Reg} (h : Reg.ofNibble? n = some r) : r.toNibble = n := by
  revert r
  revert n
  decide

/-- The sentinel is the one identifier that names no register. -/
theorem Reg.ofNibble?_eq_none_iff {n : Nibble} : Reg.ofNibble? n = none ↔ n = 0xF := by
  revert n
  decide

@[simp] theorem Reg.toNibble_ne_sentinel (r : Reg) : r.toNibble ≠ 0xF := by
  cases r <;> decide

@[simp] theorem pairHigh_pairByte (a b : Nibble) : pairHigh (pairByte a b) = a := by
  revert a b; decide

@[simp] theorem pairLow_pairByte (a b : Nibble) : pairLow (pairByte a b) = b := by
  revert a b; decide

@[simp] theorem pairByte_pairHigh_pairLow (p : Byte) : pairByte (pairHigh p) (pairLow p) = p := by
  revert p; decide

/-- The constant of a word's own bytes is the word. -/
theorem constWord_slices (v : Word) :
    constWord (v.extractLsb' 56 8) (v.extractLsb' 48 8) (v.extractLsb' 40 8) (v.extractLsb' 32 8)
      (v.extractLsb' 24 8) (v.extractLsb' 16 8) (v.extractLsb' 8 8) (v.extractLsb' 0 8) = v := by
  apply BitVec.eq_of_getLsbD_eq
  intro i hi
  simp only [constWord, BitVec.getLsbD_append, BitVec.getLsbD_extractLsb']
  interval_cases i <;> simp

/-- The bytes of the constant of eight bytes are those bytes. -/
theorem constBytes_constWord (c0 c1 c2 c3 c4 c5 c6 c7 : Byte) :
    constBytes (constWord c0 c1 c2 c3 c4 c5 c6 c7) = [c0, c1, c2, c3, c4, c5, c6, c7] := by
  simp only [constBytes, List.cons.injEq, and_true]
  refine ⟨?_, ?_, ?_, ?_, ?_, ?_, ?_, ?_⟩ <;>
    (apply BitVec.eq_of_getLsbD_eq
     intro i hi
     simp only [constWord, BitVec.getLsbD_append, BitVec.getLsbD_extractLsb']
     interval_cases i <;> simp)

@[simp] theorem constBytes_length (v : Word) : (constBytes v).length = 8 := rfl

/-- The encoding of an instruction has the length of its opcode. -/
theorem encode_length (i : Instr) : (encode i).length = i.length := by
  cases i <;> rfl

/-- Every encoding begins with its opcode byte. -/
theorem encode_head (i : Instr) : ∃ rest, encode i = i.toFields.op.toByte :: rest := by
  cases i <;> exact ⟨_, rfl⟩

/-- The canonical fields of an instruction stand for it. -/
theorem toInstr?_toFields (i : Instr) : i.toFields.toInstr? = some i := by
  cases i <;> simp [Instr.toFields, Fields.toInstr?, twoRegs, oneReg, rNone]

/-- Fields taken from bytes are the fields those bytes encode. -/
theorem takeFields_bytes {op : Opcode} {bs rest : List Byte} {f : Fields} (h : takeFields op bs = some (f, rest)) :
    f.op = op ∧ op.toByte :: bs = f.bytes ++ rest := by
  unfold takeFields at h
  split at h <;> simp only [Option.some.injEq, Prod.mk.injEq, reduceCtorEq] at h
  all_goals
    obtain ⟨rfl, rfl⟩ := h
    simp_all [Fields.bytes, constBytes_constWord]

/-- An instruction that fetched fields stand for has their opcode and their bytes. -/
theorem toFields_of_toInstr? {f : Fields} {i : Instr} (h : f.toInstr? = some i) :
    i.toFields.op = f.op ∧ i.toFields.bytes = f.bytes := by
  obtain ⟨op, a, b, v⟩ := f
  cases op <;> simp only [Fields.toInstr?, twoRegs, oneReg] at h
  all_goals first
    | (cases h; exact ⟨rfl, rfl⟩)
    | (split at h
       · rename_i x y h1 h2
         cases h
         rw [← Reg.toNibble_of_ofNibble? h1, ← Reg.toNibble_of_ofNibble? h2]
         exact ⟨rfl, rfl⟩
       · cases h)
    | (split at h
       · rename_i h1
         rw [Option.map_eq_some_iff] at h
         obtain ⟨x, h2, rfl⟩ := h
         subst h1
         rw [← Reg.toNibble_of_ofNibble? h2]
         exact ⟨rfl, rfl⟩
       · cases h)

/-- What a decoder that answers an instruction found, step by step. -/
theorem decode_eq_instr {bytes rest : List Byte} {i : Instr} (h : decode bytes = .instr i rest) :
    ∃ bs f, bytes = f.op.toByte :: bs ∧ takeFields f.op bs = some (f, rest) ∧ f.toInstr? = some i := by
  cases bytes with
  | nil => cases h
  | cons b bs =>
    simp only [decode] at h
    split at h
    · cases h
    · rename_i op hop
      split at h
      · cases h
      · rename_i f rest' hf
        split at h
        · cases h
        · rename_i j hj
          cases h
          obtain ⟨rfl, -⟩ := takeFields_bytes hf
          exact ⟨bs, f, by rw [Opcode.toByte_of_ofByte? hop], hf, hj⟩

end Sys2Proof
end

