-- ==== Sys2Proof/Laws/Memory.lean ====
section
/-! SUPPORT. Reading after writing, and that every memory operation keeps the canonical form. -/

namespace Sys2Proof.Machine

theorem Memory.readByte_erase (m : Memory) (a x : Nat) :
    (m.erase a).readByte x = if x = a then unlistedByte else m.readByte x := by
  induction m with
  | nil => simp [Memory.erase, Memory.readByte]
  | cons c rest ih =>
    obtain ⟨k, b⟩ := c
    by_cases hk : k = a
    · subst hk
      rw [Memory.erase, if_pos rfl, ih]
      by_cases hx : x = k
      · rw [if_pos hx, if_pos hx]
      · rw [if_neg hx, if_neg hx, Memory.readByte, if_neg (Ne.symm hx)]
    · by_cases hx : x = a
      · subst hx; simp [Memory.erase, Memory.readByte, hk, ih]
      · simp [Memory.erase, Memory.readByte, hk, ih, hx]

theorem Memory.readByte_insert (m : Memory) (a x : Nat) (v : Byte) :
    (m.insert a v).readByte x = if x = a then v else m.readByte x := by
  induction m with
  | nil => simp [Memory.insert, Memory.readByte, eq_comm]
  | cons c rest ih =>
    obtain ⟨k, b⟩ := c
    by_cases h1 : a < k
    · rw [Memory.insert, if_pos h1]
      simp [Memory.readByte, eq_comm]
    · by_cases h2 : k = a
      · subst h2
        by_cases hx : x = k <;> simp [Memory.insert, Memory.readByte, hx, eq_comm]
      · by_cases hx : x = a
        · subst hx; simp [Memory.insert, Memory.readByte, h1, h2, ih]
        · simp [Memory.insert, Memory.readByte, h1, h2, ih, hx]

/-- A byte reads what was last written to it, and a write leaves every other byte alone. -/
theorem Memory.readByte_writeByte (m : Memory) (a x : Nat) (v : Byte) :
    (m.writeByte a v).readByte x = if x = a then v else m.readByte x := by
  by_cases hv : v = unlistedByte
  · simp [Memory.writeByte, hv, Memory.readByte_erase]
  · simp [Memory.writeByte, hv, Memory.readByte_insert]

theorem Memory.mem_erase {m : Memory} {a : Nat} {c : Host.Cell} (h : c ∈ m.erase a) : c ∈ m := by
  induction m with
  | nil => exact h
  | cons d rest ih =>
    obtain ⟨k, b⟩ := d
    by_cases hk : k = a
    · rw [Memory.erase, if_pos hk] at h
      exact List.mem_cons_of_mem _ (ih h)
    · rw [Memory.erase, if_neg hk] at h
      rcases List.mem_cons.1 h with h | h
      · exact h ▸ List.mem_cons_self
      · exact List.mem_cons_of_mem _ (ih h)

theorem Memory.mem_insert {m : Memory} {a : Nat} {v : Byte} {c : Host.Cell}
    (h : c ∈ m.insert a v) : c = (a, v) ∨ c ∈ m := by
  induction m with
  | nil => simpa [Memory.insert] using h
  | cons d rest ih =>
    obtain ⟨k, b⟩ := d
    by_cases h1 : a < k
    · rw [Memory.insert, if_pos h1] at h
      exact List.mem_cons.1 h
    · by_cases h2 : k = a
      · rw [Memory.insert, if_neg h1, if_pos h2] at h
        rcases List.mem_cons.1 h with h | h
        · exact .inl h
        · exact .inr (List.mem_cons_of_mem _ h)
      · rw [Memory.insert, if_neg h1, if_neg h2] at h
        rcases List.mem_cons.1 h with h | h
        · exact .inr (h ▸ List.mem_cons_self)
        · exact (ih h).imp id (List.mem_cons_of_mem _)

theorem Memory.mem_writeByte {m : Memory} {a : Nat} {v : Byte} {c : Host.Cell}
    (h : c ∈ m.writeByte a v) : c.1 = a ∨ c ∈ m := by
  by_cases hv : v = unlistedByte
  · rw [Memory.writeByte, if_pos hv] at h; exact .inr (Memory.mem_erase h)
  · rw [Memory.writeByte, if_neg hv] at h
    exact (Memory.mem_insert h).imp (fun e => by rw [e]) id

theorem Memory.erase_wf {m : Memory} (a : Nat) (h : m.wf) : (m.erase a).wf := by
  refine ⟨?_, fun c hc => h.2 c (Memory.mem_erase hc)⟩
  have hp := h.1
  clear h
  induction m with
  | nil => exact hp
  | cons d rest ih =>
    obtain ⟨k, b⟩ := d
    rw [List.pairwise_cons] at hp
    by_cases hk : k = a
    · rw [Memory.erase, if_pos hk]; exact ih hp.2
    · rw [Memory.erase, if_neg hk, List.pairwise_cons]
      exact ⟨fun c hc => hp.1 c (Memory.mem_erase hc), ih hp.2⟩

theorem Memory.insert_wf {m : Memory} (a : Nat) {v : Byte} (hv : v ≠ unlistedByte) (h : m.wf) :
    (m.insert a v).wf := by
  refine ⟨?_, fun c hc => (Memory.mem_insert hc).elim (fun e => by rw [e]; exact hv) (h.2 c)⟩
  have hp := h.1
  clear h
  induction m with
  | nil => simp [Memory.insert]
  | cons d rest ih =>
    obtain ⟨k, b⟩ := d
    have hp' := List.pairwise_cons.1 hp
    by_cases h1 : a < k
    · rw [Memory.insert, if_pos h1, List.pairwise_cons]
      refine ⟨fun c hc => ?_, hp⟩
      rcases List.mem_cons.1 hc with rfl | hc
      · exact h1
      · exact Nat.lt_trans h1 (hp'.1 c hc)
    · by_cases h2 : k = a
      · subst h2
        rw [Memory.insert, if_neg h1, if_pos rfl, List.pairwise_cons]
        exact ⟨hp'.1, hp'.2⟩
      · rw [Memory.insert, if_neg h1, if_neg h2, List.pairwise_cons]
        refine ⟨fun c hc => ?_, ih hp'.2⟩
        rcases Memory.mem_insert hc with rfl | hc
        · exact show k < a by omega
        · exact hp'.1 c hc

/-- Writing a byte keeps the canonical form. -/
theorem Memory.writeByte_wf {m : Memory} (a : Nat) (v : Byte) (h : m.wf) : (m.writeByte a v).wf := by
  by_cases hv : v = unlistedByte
  · rw [Memory.writeByte, if_pos hv]; exact Memory.erase_wf a h
  · rw [Memory.writeByte, if_neg hv]; exact Memory.insert_wf a hv h

/-- Writing bytes keeps the canonical form. -/
theorem Memory.writeBytes_wf {m : Memory} (a : Nat) (bs : List Byte) (h : m.wf) : (m.writeBytes a bs).wf := by
  induction bs generalizing m a with
  | nil => exact h
  | cons b rest ih => exact ih (a + 1) (Memory.writeByte_wf a b h)

/-- Writing a word keeps the canonical form. -/
theorem Memory.writeWord_wf {m : Memory} (a : Nat) (v : Word) (h : m.wf) : (m.writeWord a v).wf :=
  Memory.writeBytes_wf a _ h

theorem Memory.mem_writeBytes {m : Memory} {a : Nat} {bs : List Byte} {c : Host.Cell}
    (h : c ∈ m.writeBytes a bs) : (a ≤ c.1 ∧ c.1 < a + bs.length) ∨ c ∈ m := by
  induction bs generalizing m a with
  | nil => exact .inr h
  | cons b rest ih =>
    rcases ih h with h | h
    · left; simp only [List.length_cons]; omega
    · rcases Memory.mem_writeByte h with h | h
      · left; simp only [List.length_cons]; omega
      · exact .inr h

/-- A byte after writing bytes at `a`: the written byte inside them, what it was outside. -/
theorem Memory.readByte_writeBytes (m : Memory) (a : Nat) (bs : List Byte) (x : Nat) :
    (m.writeBytes a bs).readByte x =
      if h : a ≤ x ∧ x < a + bs.length then bs[x - a]'(by omega) else m.readByte x := by
  induction bs generalizing m a with
  | nil =>
    rw [Memory.writeBytes, dif_neg]
    simp only [List.length_nil]; omega
  | cons b rest ih =>
    rw [Memory.writeBytes, ih]
    by_cases h1 : a + 1 ≤ x ∧ x < a + 1 + rest.length
    · have h2 : a ≤ x ∧ x < a + (b :: rest).length := by simp only [List.length_cons]; omega
      rw [dif_pos h1, dif_pos h2]
      have : x - a = (x - (a + 1)) + 1 := by omega
      simp [this]
    · rw [dif_neg h1, Memory.readByte_writeByte]
      by_cases hx : x = a
      · subst hx; simp
      · have h2 : ¬(a ≤ x ∧ x < a + (b :: rest).length) := by
          simp only [List.length_cons]; omega
        rw [dif_neg h2, if_neg hx]

@[simp] theorem dataBytes_length (v : Word) : (dataBytes v).length = 8 := rfl

/-- The bytes a word write leaves alone. -/
theorem Memory.readByte_writeWord_outside (m : Memory) (a : Nat) (v : Word) {x : Nat}
    (h : x < a ∨ a + 8 ≤ x) : (m.writeWord a v).readByte x = m.readByte x := by
  rw [Memory.writeWord, Memory.readByte_writeBytes, dif_neg (by simp only [dataBytes_length]; omega)]

/-- The bytes a word write leaves at its own addresses, most significant first. -/
theorem Memory.readByte_writeWord_inside (m : Memory) (a : Nat) (v : Word) {k : Nat} (h : k < 8) :
    (m.writeWord a v).readByte (a + k) = v.extractLsb' (56 - 8 * k) 8 := by
  rw [Memory.writeWord, Memory.readByte_writeBytes, dif_pos (by simp only [dataBytes_length]; omega)]
  simp only [Nat.add_sub_cancel_left]
  interval_cases k <;> rfl

/-- Eight slices of a word, put together again, are the word. -/
theorem append_of_slices (v : Word) :
    v.extractLsb' 56 8 ++ v.extractLsb' 48 8 ++ v.extractLsb' 40 8 ++ v.extractLsb' 32 8 ++
      v.extractLsb' 24 8 ++ v.extractLsb' 16 8 ++ v.extractLsb' 8 8 ++ v.extractLsb' 0 8 = v := by
  apply BitVec.eq_of_getLsbD_eq
  intro i hi
  simp only [BitVec.getLsbD_append, BitVec.getLsbD_extractLsb']
  interval_cases i <;> simp

/-- A word reads what was last written to it. -/
@[simp] theorem Memory.readWord_writeWord (m : Memory) (a : Nat) (v : Word) :
    (m.writeWord a v).readWord a = v := by
  have h := fun k (hk : k < 8) => Memory.readByte_writeWord_inside m a v hk
  have h0 := h 0 (by omega)
  rw [Nat.add_zero] at h0
  rw [Memory.readWord, h0, h 1 (by omega), h 2 (by omega), h 3 (by omega), h 4 (by omega),
    h 5 (by omega), h 6 (by omega), h 7 (by omega)]
  exact append_of_slices v

/-- Bytes read alike give words that read alike. -/
theorem Memory.readWord_congr {m n : Memory} {a : Nat} (h : ∀ k < 8, m.readByte (a + k) = n.readByte (a + k)) :
    m.readWord a = n.readWord a := by
  have h0 := h 0 (by omega)
  rw [Nat.add_zero] at h0
  rw [Memory.readWord, Memory.readWord, h0, h 1 (by omega), h 2 (by omega), h 3 (by omega),
    h 4 (by omega), h 5 (by omega), h 6 (by omega), h 7 (by omega)]

@[simp] theorem Memory.length_readBytes (m : Memory) (a n : Nat) : (m.readBytes a n).length = n := by
  induction n generalizing a with
  | zero => rfl
  | succ n ih => simp [Memory.readBytes, ih]

/-- Bytes read alike give byte strings that read alike. -/
theorem Memory.readBytes_congr {m n : Memory} {a len : Nat}
    (h : ∀ k < len, m.readByte (a + k) = n.readByte (a + k)) : m.readBytes a len = n.readBytes a len := by
  induction len generalizing a with
  | zero => rfl
  | succ len ih =>
    have h0 := h 0 (by omega)
    rw [Nat.add_zero] at h0
    rw [Memory.readBytes, Memory.readBytes, h0]
    refine congrArg _ (ih fun k hk => ?_)
    have := h (k + 1) (by omega)
    rwa [show a + (k + 1) = a + 1 + k by omega] at this

end Sys2Proof.Machine
end

