-- ==== Sys2Proof/Laws/State.lean ====
section
/-! SUPPORT. One lemma per field per update of State, and reads of registers after an update. -/

namespace Sys2Proof.Machine

theorem Reg_index_injective {r q : Reg} (h : r.index.val = q.index.val) : r = q := by
  revert h; cases r <;> cases q <;> decide

@[simp] theorem State.writeReg_regs (s : State) (r : Reg) (v : Word) : (s.writeReg r v).regs = s.regs.set r.index v := rfl
@[simp] theorem State.writeReg_pc (s : State) (r : Reg) (v : Word) : (s.writeReg r v).pc = s.pc := rfl
@[simp] theorem State.writeReg_flags (s : State) (r : Reg) (v : Word) : (s.writeReg r v).flags = s.flags := rfl
@[simp] theorem State.writeReg_stat (s : State) (r : Reg) (v : Word) : (s.writeReg r v).stat = s.stat := rfl
@[simp] theorem State.writeReg_mem (s : State) (r : Reg) (v : Word) : (s.writeReg r v).mem = s.mem := rfl
@[simp] theorem State.writeReg_memMax (s : State) (r : Reg) (v : Word) : (s.writeReg r v).memMax = s.memMax := rfl

@[simp] theorem State.setPc_regs (s : State) (v : Word) : (s.setPc v).regs = s.regs := rfl
@[simp] theorem State.setPc_pc (s : State) (v : Word) : (s.setPc v).pc = v := rfl
@[simp] theorem State.setPc_flags (s : State) (v : Word) : (s.setPc v).flags = s.flags := rfl
@[simp] theorem State.setPc_stat (s : State) (v : Word) : (s.setPc v).stat = s.stat := rfl
@[simp] theorem State.setPc_mem (s : State) (v : Word) : (s.setPc v).mem = s.mem := rfl
@[simp] theorem State.setPc_memMax (s : State) (v : Word) : (s.setPc v).memMax = s.memMax := rfl

@[simp] theorem State.setFlags_regs (s : State) (f : Flags) : (s.setFlags f).regs = s.regs := rfl
@[simp] theorem State.setFlags_pc (s : State) (f : Flags) : (s.setFlags f).pc = s.pc := rfl
@[simp] theorem State.setFlags_flags (s : State) (f : Flags) : (s.setFlags f).flags = f := rfl
@[simp] theorem State.setFlags_stat (s : State) (f : Flags) : (s.setFlags f).stat = s.stat := rfl
@[simp] theorem State.setFlags_mem (s : State) (f : Flags) : (s.setFlags f).mem = s.mem := rfl
@[simp] theorem State.setFlags_memMax (s : State) (f : Flags) : (s.setFlags f).memMax = s.memMax := rfl

@[simp] theorem State.setStat_regs (s : State) (st : Stat) : (s.setStat st).regs = s.regs := rfl
@[simp] theorem State.setStat_pc (s : State) (st : Stat) : (s.setStat st).pc = s.pc := rfl
@[simp] theorem State.setStat_flags (s : State) (st : Stat) : (s.setStat st).flags = s.flags := rfl
@[simp] theorem State.setStat_stat (s : State) (st : Stat) : (s.setStat st).stat = st := rfl
@[simp] theorem State.setStat_mem (s : State) (st : Stat) : (s.setStat st).mem = s.mem := rfl
@[simp] theorem State.setStat_memMax (s : State) (st : Stat) : (s.setStat st).memMax = s.memMax := rfl

@[simp] theorem State.setMem_regs (s : State) (m : Memory) : (s.setMem m).regs = s.regs := rfl
@[simp] theorem State.setMem_pc (s : State) (m : Memory) : (s.setMem m).pc = s.pc := rfl
@[simp] theorem State.setMem_flags (s : State) (m : Memory) : (s.setMem m).flags = s.flags := rfl
@[simp] theorem State.setMem_stat (s : State) (m : Memory) : (s.setMem m).stat = s.stat := rfl
@[simp] theorem State.setMem_mem (s : State) (m : Memory) : (s.setMem m).mem = m := rfl
@[simp] theorem State.setMem_memMax (s : State) (m : Memory) : (s.setMem m).memMax = s.memMax := rfl

@[simp] theorem State.raise_regs (s : State) (c : Stop) : (s.raise c).regs = s.regs := rfl
@[simp] theorem State.raise_pc (s : State) (c : Stop) : (s.raise c).pc = s.pc := rfl
@[simp] theorem State.raise_flags (s : State) (c : Stop) : (s.raise c).flags = s.flags := rfl
@[simp] theorem State.raise_stat (s : State) (c : Stop) : (s.raise c).stat = c.stat := rfl
@[simp] theorem State.raise_mem (s : State) (c : Stop) : (s.raise c).mem = s.mem := rfl
@[simp] theorem State.raise_memMax (s : State) (c : Stop) : (s.raise c).memMax = s.memMax := rfl

@[simp] theorem State.readReg_setPc (s : State) (v : Word) (q : Reg) : (s.setPc v).readReg q = s.readReg q := rfl
@[simp] theorem State.sp_setPc (s : State) (v : Word) : (s.setPc v).sp = s.sp := rfl
@[simp] theorem State.readReg_setFlags (s : State) (f : Flags) (q : Reg) : (s.setFlags f).readReg q = s.readReg q := rfl
@[simp] theorem State.sp_setFlags (s : State) (f : Flags) : (s.setFlags f).sp = s.sp := rfl
@[simp] theorem State.readReg_setStat (s : State) (st : Stat) (q : Reg) : (s.setStat st).readReg q = s.readReg q := rfl
@[simp] theorem State.sp_setStat (s : State) (st : Stat) : (s.setStat st).sp = s.sp := rfl
@[simp] theorem State.readReg_setMem (s : State) (m : Memory) (q : Reg) : (s.setMem m).readReg q = s.readReg q := rfl
@[simp] theorem State.sp_setMem (s : State) (m : Memory) : (s.setMem m).sp = s.sp := rfl
@[simp] theorem State.readReg_raise (s : State) (c : Stop) (q : Reg) : (s.raise c).readReg q = s.readReg q := rfl
@[simp] theorem State.sp_raise (s : State) (c : Stop) : (s.raise c).sp = s.sp := rfl

/-- A register reads what was last written to it, and a write leaves the others alone. -/
theorem State.readReg_writeReg (s : State) (r q : Reg) (v : Word) :
    (s.writeReg r v).readReg q = if q = r then v else s.readReg q := by
  simp only [State.readReg, State.writeReg, Fin.getElem_fin, Vector.getElem_set]
  by_cases h : q = r
  · simp [h]
  · have : r.index.val ≠ q.index.val := fun e => h (Reg_index_injective e).symm
    simp [h, this]

@[simp] theorem State.readReg_writeReg_self (s : State) (r : Reg) (v : Word) :
    (s.writeReg r v).readReg r = v := by
  simp [State.readReg_writeReg]

theorem State.readReg_writeReg_of_ne (s : State) {r q : Reg} (v : Word) (h : q ≠ r) :
    (s.writeReg r v).readReg q = s.readReg q := by
  simp [State.readReg_writeReg, h]

@[simp] theorem State.valP_writeReg (s : State) (r : Reg) (v : Word) (n : Nat) :
    (s.writeReg r v).valP n = s.valP n := rfl

@[simp] theorem State.inBounds_setMem (s : State) (m : Memory) (a : Word) (n : Nat) :
    (s.setMem m).inBounds a n = s.inBounds a n := rfl

end Sys2Proof.Machine
end

