-- ==== Sys2Proof/Laws/Ops.lean ====
section
/-! SUPPORT. What each shared operation can do, said once: bounds, guard, load, store, push, pop, and that they keep the invariant. -/

namespace Sys2Proof.Machine

theorem toNat_of_toInt_nonneg {a : Word} (h : 0 ≤ a.toInt) : (a.toNat : Int) = a.toInt := by
  rw [BitVec.toInt_eq_toNat_cond] at h ⊢
  split at h <;> split <;> omega

theorem State.inBounds_iff {s : State} {a : Word} {n : Nat} :
    s.inBounds a n = true ↔ 0 ≤ a.toInt ∧ a.toInt + n ≤ s.memMax := by
  simp [State.inBounds]

theorem State.inBounds_eq_false_iff {s : State} {a : Word} {n : Nat} :
    s.inBounds a n = false ↔ a.toInt < 0 ∨ (s.memMax : Int) < a.toInt + n := by
  rw [← Bool.not_eq_true, State.inBounds_iff]; omega

theorem State.guardStops_iff {s : State} {a : Word} : s.guardStops a = true ↔ s.sp.toInt ≤ a.toInt := by
  simp [State.guardStops]

/-- A load answers the word at an address in bounds, and nothing else. -/
theorem State.memRead8_eq_some_iff {s : State} {a v : Word} :
    s.memRead8 a = some v ↔ s.inBounds a 8 = true ∧ s.mem.readWord a.toNat = v := by
  unfold State.memRead8; split <;> simp_all

theorem State.memRead8_eq_none_iff {s : State} {a : Word} : s.memRead8 a = none ↔ s.inBounds a 8 = false := by
  unfold State.memRead8; split <;> simp_all

/-- A store that answers passed the guard and the bounds check, and changed the memory alone. -/
theorem State.store_eq_some_iff {s t : State} {a v : Word} :
    s.store a v = some t ↔
      a.toInt < s.sp.toInt ∧ s.inBounds a 8 = true ∧ t = s.setMem (s.mem.writeWord a.toNat v) := by
  unfold State.store State.memWrite8
  by_cases hg : s.guardStops a = true
  · have := State.guardStops_iff.1 hg
    rw [if_pos hg]
    constructor
    · exact fun h => absurd h (by simp)
    · rintro ⟨h, -, -⟩; omega
  · have := mt State.guardStops_iff.2 hg
    rw [if_neg hg]
    split
    · rename_i hb
      simp only [Option.some.injEq, hb, true_and]
      exact ⟨fun h => ⟨by omega, h.symm⟩, fun h => h.2.symm⟩
    · rename_i hb
      constructor
      · exact fun h => absurd h (by simp)
      · rintro ⟨-, h, -⟩; exact absurd h hb

/-- A store that does not answer failed the guard or the bounds check. -/
theorem State.store_eq_none_iff {s : State} {a v : Word} :
    s.store a v = none ↔ s.sp.toInt ≤ a.toInt ∨ s.inBounds a 8 = false := by
  unfold State.store State.memWrite8
  by_cases hg : s.guardStops a = true
  · simp [hg, State.guardStops_iff.1 hg]
  · have := mt State.guardStops_iff.2 hg
    rw [if_neg hg]
    split <;> rename_i hb
    · simp only [reduceCtorEq, hb, Bool.true_eq_false, or_false, false_iff]; exact this
    · simpa using Or.inr hb

theorem toInt_sub_eight {a : Word} (h : -2 ^ 63 + 8 ≤ a.toInt) : (a - 8).toInt = a.toInt - 8 := by
  rw [BitVec.toInt_sub]
  have h1 := BitVec.toInt_lt (x := a)
  have h2 := BitVec.le_toInt (x := a)
  have h8 : (8 : Word).toInt = 8 := by decide
  rw [h8, Int.bmod_eq_of_le] <;> norm_num at * <;> omega

theorem toInt_sub_eight_wrap {a : Word} (h : a.toInt < -2 ^ 63 + 8) : (a - 8).toInt = a.toInt - 8 + 2 ^ 64 := by
  have h1 := BitVec.toInt_lt (x := a)
  have h2 := BitVec.le_toInt (x := a)
  have e : (a - 8).toInt = (a.toInt - 8).bmod (2 ^ 64) := by
    rw [BitVec.toInt_sub]; rfl
  rw [e, ← Int.add_bmod_right, Int.bmod_eq_of_le] <;> norm_num at * <;> omega

/-- The bounds check alone decides a push: it answers exactly when SP is in `8 .. MEM_MAX` (20_memory.md R62). -/
theorem State.store_pushAddress_isSome_iff {s : State} {v : Word} :
    (s.store s.pushAddress v).isSome ↔ 8 ≤ s.sp.toInt ∧ s.sp.toInt ≤ s.memMax := by
  rw [← Option.ne_none_iff_isSome, ne_eq, State.store_eq_none_iff, State.inBounds_eq_false_iff]
  unfold State.pushAddress
  by_cases h : -2 ^ 63 + 8 ≤ s.sp.toInt
  · rw [toInt_sub_eight h]; push_cast; omega
  · have := BitVec.le_toInt (x := s.sp)
    rw [toInt_sub_eight_wrap (by omega)]; norm_num at *; omega

/-- What a push that answers did. -/
theorem State.push_eq_some_iff {s t : State} {v : Word} :
    s.push v = some t ↔ (8 ≤ s.sp.toInt ∧ s.sp.toInt ≤ s.memMax) ∧
      t = (s.setMem (s.mem.writeWord s.pushAddress.toNat v)).writeReg spId s.pushAddress := by
  rw [← State.store_pushAddress_isSome_iff (v := v)]
  unfold State.push
  cases hs : s.store s.pushAddress v with
  | none => simp
  | some u =>
    obtain ⟨-, -, rfl⟩ := State.store_eq_some_iff.1 hs
    simp [eq_comm]

theorem State.push_eq_none_iff {s : State} {v : Word} :
    s.push v = none ↔ s.sp.toInt < 8 ∨ (s.memMax : Int) < s.sp.toInt := by
  have h := State.store_pushAddress_isSome_iff (s := s) (v := v)
  unfold State.push
  cases hs : s.store s.pushAddress v with
  | none => simp only [hs, Option.isSome_none, Bool.false_eq_true, false_iff] at h; simp only [true_iff]; omega
  | some u => simp only [hs, Option.isSome_some, true_iff] at h; simp only [reduceCtorEq, false_iff]; omega

/-- What a pop that answers did. -/
theorem State.pop_eq_some_iff {s t : State} {v : Word} :
    s.pop = some (v, t) ↔ s.inBounds s.sp 8 = true ∧ s.mem.readWord s.sp.toNat = v ∧
      t = s.writeReg spId (s.sp + 8) := by
  unfold State.pop
  cases hs : s.memRead8 s.sp with
  | none => have := State.memRead8_eq_none_iff.1 hs; simp [this]
  | some w =>
    obtain ⟨hb, rfl⟩ := State.memRead8_eq_some_iff.1 hs
    simp [hb, eq_comm]

theorem State.pop_eq_none_iff {s : State} : s.pop = none ↔ s.inBounds s.sp 8 = false := by
  unfold State.pop
  cases hs : s.memRead8 s.sp with
  | none => simp [State.memRead8_eq_none_iff.1 hs]
  | some w => simp [(State.memRead8_eq_some_iff.1 hs).1]

theorem Memory.writeWord_within {m : Memory} {n a : Nat} {v : Word} (h : m.within n) (ha : a + 8 ≤ n) :
    (m.writeWord a v).within n := by
  intro c hc
  rcases Memory.mem_writeBytes hc with h' | h'
  · rw [dataBytes_length] at h'; omega
  · exact h c h'

/-- Writing a word in bounds keeps the invariant. -/
theorem State.inv_setMem_writeWord {s : State} {a v : Word} (h : s.Inv) (hb : s.inBounds a 8 = true) :
    (s.setMem (s.mem.writeWord a.toNat v)).Inv := by
  obtain ⟨h0, h1⟩ := State.inBounds_iff.1 hb
  have := toNat_of_toInt_nonneg h0
  have hroom : a.toNat + 8 ≤ s.memMax := by push_cast at h1; omega
  exact ⟨h.1, Memory.writeWord_wf _ _ h.2.1, Memory.writeWord_within h.2.2 hroom⟩

/-- The invariant looks at the memory and its capacity alone. -/
theorem State.inv_congr {s t : State} (hm : t.mem = s.mem) (hc : t.memMax = s.memMax) : t.Inv ↔ s.Inv := by
  simp only [State.Inv, hm, hc]

end Sys2Proof.Machine
end

