-- ==== Sys2Proof/Laws/PerInstr.lean ====
section
/-! SUPPORT. Laws of every instruction as syntax, one lemma per constructor. -/

namespace Sys2Proof.Laws.Canonical

/-- The canonical fields of an instruction pass the check of 30_encoding.md R89, and its encoding begins with its
opcode byte and has the length 30_encoding.md R87 gives that byte. -/
def Statement (i : Instr) : Prop :=
  i.WellFormed ∧ (encode i).head? = some i.toFields.op.toByte ∧ (encode i).length = i.toFields.op.length

theorem halt : Statement .halt := ⟨rfl, rfl, rfl⟩

theorem nop : Statement .nop := ⟨rfl, rfl, rfl⟩

theorem rrmovq (rA rB : Reg) : Statement (.rrmovq rA rB) :=
  ⟨by cases rA <;> cases rB <;> rfl, rfl, rfl⟩

theorem cmovle (rA rB : Reg) : Statement (.cmovle rA rB) :=
  ⟨by cases rA <;> cases rB <;> rfl, rfl, rfl⟩

theorem cmovl (rA rB : Reg) : Statement (.cmovl rA rB) :=
  ⟨by cases rA <;> cases rB <;> rfl, rfl, rfl⟩

theorem cmove (rA rB : Reg) : Statement (.cmove rA rB) :=
  ⟨by cases rA <;> cases rB <;> rfl, rfl, rfl⟩

theorem cmovne (rA rB : Reg) : Statement (.cmovne rA rB) :=
  ⟨by cases rA <;> cases rB <;> rfl, rfl, rfl⟩

theorem cmovge (rA rB : Reg) : Statement (.cmovge rA rB) :=
  ⟨by cases rA <;> cases rB <;> rfl, rfl, rfl⟩

theorem cmovg (rA rB : Reg) : Statement (.cmovg rA rB) :=
  ⟨by cases rA <;> cases rB <;> rfl, rfl, rfl⟩

theorem irmovq (rB : Reg) (imm : Word) : Statement (.irmovq rB imm) :=
  ⟨by cases rB <;> rfl, rfl, rfl⟩

theorem rmmovq (rA rB : Reg) (disp : Word) : Statement (.rmmovq rA rB disp) :=
  ⟨by cases rA <;> cases rB <;> rfl, rfl, rfl⟩

theorem mrmovq (rA rB : Reg) (disp : Word) : Statement (.mrmovq rA rB disp) :=
  ⟨by cases rA <;> cases rB <;> rfl, rfl, rfl⟩

theorem addq (rA rB : Reg) : Statement (.addq rA rB) :=
  ⟨by cases rA <;> cases rB <;> rfl, rfl, rfl⟩

theorem subq (rA rB : Reg) : Statement (.subq rA rB) :=
  ⟨by cases rA <;> cases rB <;> rfl, rfl, rfl⟩

theorem andq (rA rB : Reg) : Statement (.andq rA rB) :=
  ⟨by cases rA <;> cases rB <;> rfl, rfl, rfl⟩

theorem xorq (rA rB : Reg) : Statement (.xorq rA rB) :=
  ⟨by cases rA <;> cases rB <;> rfl, rfl, rfl⟩

theorem jmp (dest : Word) : Statement (.jmp dest) := ⟨rfl, rfl, rfl⟩

theorem jle (dest : Word) : Statement (.jle dest) := ⟨rfl, rfl, rfl⟩

theorem jl (dest : Word) : Statement (.jl dest) := ⟨rfl, rfl, rfl⟩

theorem je (dest : Word) : Statement (.je dest) := ⟨rfl, rfl, rfl⟩

theorem jne (dest : Word) : Statement (.jne dest) := ⟨rfl, rfl, rfl⟩

theorem jge (dest : Word) : Statement (.jge dest) := ⟨rfl, rfl, rfl⟩

theorem jg (dest : Word) : Statement (.jg dest) := ⟨rfl, rfl, rfl⟩

theorem call (dest : Word) : Statement (.call dest) := ⟨rfl, rfl, rfl⟩

theorem ret : Statement .ret := ⟨rfl, rfl, rfl⟩

theorem pushq (rA : Reg) : Statement (.pushq rA) := ⟨by cases rA <;> rfl, rfl, rfl⟩

theorem popq (rA : Reg) : Statement (.popq rA) := ⟨by cases rA <;> rfl, rfl, rfl⟩

end Sys2Proof.Laws.Canonical
end

