-- ==== Sys2Proof/Laws/Step.lean ====
section
/-! SUPPORT. What fetch, an instruction and a step can do, said once. -/

namespace Sys2Proof.Machine

/-- A step that answers a next state began with status AOK and either ran the fetched instruction or raised the
stop fetch found. -/
theorem step_cases {s t : State} (h : step s = .next t) :
    s.stat = .aok ∧
      ((∃ i, s.fetch = .instr i ∧ exec i s = .next t) ∨ ∃ c, s.fetch = .stop c ∧ t = s.raise c) := by
  unfold step at h
  split at h
  · rename_i hs
    refine ⟨hs, ?_⟩
    split at h
    · exact .inl ⟨_, ‹_›, h⟩
    · cases h; exact .inr ⟨_, ‹_›, rfl⟩
  · cases h

theorem step_of_fetch_instr {s : State} {i : Instr} (hs : s.stat = .aok) (h : s.fetch = .instr i) :
    step s = exec i s := by
  unfold step; rw [hs]; simp only [h]

theorem step_of_fetch_stop {s : State} {c : Stop} (hs : s.stat = .aok) (h : s.fetch = .stop c) :
    step s = .next (s.raise c) := by
  unfold step; rw [hs]; simp only [h]

/-- A fetched instruction was decoded from its own bytes, all in bounds, and its opcode byte stands at pc. -/
theorem State.fetch_eq_instr {s : State} {i : Instr} (h : s.fetch = .instr i) :
    s.inBounds s.pc i.length = true ∧ s.mem.readByte s.pc.toNat = i.toFields.op.toByte ∧
      ∃ rest, decode (s.mem.readBytes s.pc.toNat i.length) = .instr i rest := by
  unfold State.fetch at h
  split at h
  · split at h
    · cases h
    · rename_i op hop
      split at h
      · rename_i hb
        unfold fetchDecoded at h
        split at h <;> cases h
        rename_i rest hd
        obtain ⟨bs, f, hbs, hf, hi⟩ := decode_eq_instr hd
        obtain ⟨n, hn⟩ : ∃ n, op.length = n + 1 := ⟨op.length - 1, by cases op <;> rfl⟩
        rw [hn, Memory.readBytes] at hbs
        have hb0 : s.mem.readByte s.pc.toNat = f.op.toByte := (List.cons.inj hbs).1
        rw [hb0, Opcode.ofByte?_toByte] at hop
        have hop : f.op = op := Option.some.inj hop
        obtain ⟨ho, -⟩ := toFields_of_toInstr? hi
        have hl : i.length = op.length := by rw [Instr.length, ho, hop]
        rw [hl]
        exact ⟨hb, by rw [hb0, ho], rest, hd⟩
      · cases h
  · cases h

/-- The first bytes of a longer string of bytes. -/
theorem Memory.readBytes_prefix (m : Memory) (a : Nat) {n k : Nat} (h : n ≤ k) :
    ∃ r, m.readBytes a k = m.readBytes a n ++ r := by
  induction n generalizing a k with
  | zero => exact ⟨_, rfl⟩
  | succ n ih =>
    obtain ⟨k, rfl⟩ : ∃ j, k = j + 1 := ⟨k - 1, by omega⟩
    obtain ⟨r, hr⟩ := ih (a + 1) (k := k) (by omega)
    exact ⟨r, by rw [Memory.readBytes, Memory.readBytes, hr]; rfl⟩

/-- Every instruction answers a next state. -/
theorem exec_answers_next (i : Instr) (s : State) : ∃ t, exec i s = .next t := by
  cases i <;> first
    | exact ⟨_, rfl⟩
    | (simp only [exec, execRmmovq, execMrmovq, execCall, execRet, execPushq, execPopq]
       split <;> exact ⟨_, rfl⟩)

/-- An instruction that changes the flags is one of the four ALU instructions. -/
theorem exec_flags {i : Instr} {s t : State} (h : exec i s = .next t) (hf : t.flags ≠ s.flags) :
    i.toFields.op ∈ [Opcode.addq, .subq, .andq, .xorq] := by
  cases i <;> first
    | (simp [Instr.toFields]; done)
    | (cases h; exact absurd rfl hf)
    | (exfalso; cases h; apply hf; simp only [State.condMove]; split <;> rfl)
    | skip
  all_goals
    exfalso
    simp only [exec, execRmmovq, execMrmovq, execCall, execRet, execPushq, execPopq] at h
    split at h <;> cases h
    · exact hf rfl
    rename_i hh
    first
      | (obtain ⟨-, -, rfl⟩ := State.store_eq_some_iff.1 hh; exact hf rfl)
      | (obtain ⟨-, rfl⟩ := State.push_eq_some_iff.1 hh; exact hf rfl)
      | (obtain ⟨-, -, rfl⟩ := State.pop_eq_some_iff.1 hh; exact hf rfl)
      | exact hf rfl

/-- An instruction leaves the memory alone, or is a store and writes one word below SP and in bounds. -/
theorem exec_memory {i : Instr} {s t : State} (h : exec i s = .next t) :
    t.memMax = s.memMax ∧ (t.mem = s.mem ∨
      (i.toFields.op ∈ [Opcode.rmmovq, .call, .pushq] ∧
        ∃ a v, a.toInt < s.sp.toInt ∧ s.inBounds a 8 = true ∧ t.mem = s.mem.writeWord a.toNat v)) := by
  cases i <;> first
    | (cases h; exact ⟨rfl, .inl rfl⟩)
    | (cases h; simp only [State.condMove]; split <;> exact ⟨rfl, .inl rfl⟩)
    | skip
  all_goals
    simp only [exec, execRmmovq, execMrmovq, execCall, execRet, execPushq, execPopq] at h
    split at h <;> cases h
    · exact ⟨rfl, .inl rfl⟩
    rename_i hh
    first
      | (obtain ⟨h1, h2, rfl⟩ := State.store_eq_some_iff.1 hh
         exact ⟨rfl, .inr ⟨by simp [Instr.toFields], _, _, h1, h2, rfl⟩⟩)
      | (obtain ⟨-, -, rfl⟩ := State.pop_eq_some_iff.1 hh; exact ⟨rfl, .inl rfl⟩)
      | exact ⟨rfl, .inl rfl⟩
      | (obtain ⟨⟨h1, h2⟩, rfl⟩ := State.push_eq_some_iff.1 hh
         have e := toInt_sub_eight (a := s.sp) (by omega)
         refine ⟨rfl, .inr ⟨by simp [Instr.toFields], s.pushAddress, _, ?_, ?_, rfl⟩⟩
         · unfold State.pushAddress; omega
         · rw [State.inBounds_iff]; unfold State.pushAddress; constructor
           · omega
           · rw [e]; push_cast; omega)

/-- From AOK an instruction stays in AOK, or raises ADR and changes nothing else, or is `halt`. -/
theorem exec_status {i : Instr} {s t : State} (h : exec i s = .next t) (hs : s.stat = .aok) :
    t.stat = .aok ∨ t = s.raise .adr ∨ (i = .halt ∧ t = (s.setPc (s.valP 1)).setStat .hlt) := by
  cases i <;> first
    | (cases h; exact .inl hs)
    | (cases h; simp only [State.condMove]; split <;> exact .inl hs)
    | (cases h; exact .inr (.inr ⟨rfl, rfl⟩))
    | skip
  all_goals
    simp only [exec, execRmmovq, execMrmovq, execCall, execRet, execPushq, execPopq] at h
    split at h <;> cases h
    · exact .inr (.inl rfl)
    rename_i hh
    left
    first
      | (obtain ⟨-, -, rfl⟩ := State.store_eq_some_iff.1 hh; exact hs)
      | (obtain ⟨-, -, rfl⟩ := State.pop_eq_some_iff.1 hh; exact hs)
      | (obtain ⟨-, rfl⟩ := State.push_eq_some_iff.1 hh; exact hs)
      | exact hs

end Sys2Proof.Machine
end

