-- ==== Sys2Proof/Tests/Slice0.lean ====
section
/-! SUPPORT. Tests of one step or one decoding each, with results from spec/95_test_vectors.md and the examples of the instruction rules, and a witness for every statement that has hypotheses. -/

open Sys2Proof Sys2Proof.Machine

namespace Sys2Proof.Tests

/-- The state of 95_test_vectors.md's conventions (MEM_MAX 0x100, SP 0x100, everything else 0) with code at 0 and
registers and flags as given. -/
def start (code : List Byte) (regs : List (Reg × Word)) (zf sf of : Bool) : State :=
  regs.foldl (fun s p => s.writeReg p.1 p.2) ((State.reset.placeBytes 0 code).setFlags { zf, sf, of })

/-- The same with all flags clear. -/
def startClear (code : List Byte) (regs : List (Reg × Word)) : State := start code regs false false false

/-- Whether one step answers a next state of which `p` is true. -/
def after (s : State) (p : State → Bool) : Bool :=
  match step s with
  | .next t => p t
  | _ => false

/-- The flags of a state as a triple ZF, SF, OF. -/
def zso (t : State) : Bool × Bool × Bool := (t.flags.zf, t.flags.sf, t.flags.of)

/-! ### The check of register fields: one ill-formed term for each check (30_encoding.md R89) -/

theorem test_wellFormed_refuses_sentinel_in_rA :
    Fields.wellFormed { op := .rrmovq, rA := 0xF, rB := 0x0, valC := 0 } = false := by decide

theorem test_wellFormed_refuses_sentinel_in_rB :
    Fields.wellFormed { op := .addq, rA := 0x1, rB := 0xF, valC := 0 } = false := by decide

theorem test_wellFormed_refuses_register_in_rA_of_irmovq :
    Fields.wellFormed { op := .irmovq, rA := 0x0, rB := 0x0, valC := 1 } = false := by decide

theorem test_wellFormed_refuses_register_in_rB_of_pushq :
    Fields.wellFormed { op := .pushq, rA := 0x3, rB := 0x0, valC := 0 } = false := by decide

theorem test_wellFormed_accepts_pushq :
    Fields.wellFormed { op := .pushq, rA := 0x3, rB := 0xF, valC := 0 } = true := by decide

/-! ### Every constructor decoded from a word written out from 30_encoding.md R80, R85 -/

theorem test_decode_halt : decode [0x00] = .instr .halt [] := by decide

theorem test_decode_nop : decode [0x10] = .instr .nop [] := by decide

theorem test_decode_rrmovq : decode [0x20, 0x73] = .instr (.rrmovq .rdi .rbx) [] := by decide

theorem test_decode_cmovle : decode [0x21, 0x30] = .instr (.cmovle .rbx .rax) [] := by decide

theorem test_decode_cmovl : decode [0x22, 0x30] = .instr (.cmovl .rbx .rax) [] := by decide

theorem test_decode_cmove : decode [0x23, 0x12] = .instr (.cmove .rcx .rdx) [] := by decide

theorem test_decode_cmovne : decode [0x24, 0x5E] = .instr (.cmovne .rbp .r14) [] := by decide

theorem test_decode_cmovge : decode [0x25, 0x86] = .instr (.cmovge .r8 .rsi) [] := by decide

theorem test_decode_cmovg : decode [0x26, 0x9C] = .instr (.cmovg .r9 .r12) [] := by decide

theorem test_decode_irmovq : decode [0x30, 0xFD, 0x01, 0x02, 0x03, 0x04, 0x05, 0x06, 0x07, 0x08] = .instr (.irmovq .r13 0x0102030405060708) [] := by decide

theorem test_decode_rmmovq : decode [0x40, 0x03, 0, 0, 0, 0, 0, 0, 0, 0x08] = .instr (.rmmovq .rax .rbx 8) [] := by decide

theorem test_decode_mrmovq : decode [0x50, 0x13, 0x80, 0, 0, 0, 0, 0, 0, 0x10] = .instr (.mrmovq .rcx .rbx 0x8000000000000010) [] := by decide

theorem test_decode_addq : decode [0x60, 0xAB] = .instr (.addq .r10 .r11) [] := by decide

theorem test_decode_subq : decode [0x61, 0x21] = .instr (.subq .rdx .rcx) [] := by decide

theorem test_decode_andq : decode [0x62, 0x01] = .instr (.andq .rax .rcx) [] := by decide

theorem test_decode_xorq : decode [0x63, 0x04] = .instr (.xorq .rax .rsp) [] := by decide

theorem test_decode_jmp : decode [0x70, 0, 0, 0, 0, 0, 0, 0, 0x28] = .instr (.jmp 0x28) [] := by decide

theorem test_decode_jle : decode [0x71, 0, 0, 0, 0, 0, 0, 0, 0x40] = .instr (.jle 0x40) [] := by decide

theorem test_decode_jl : decode [0x72, 0, 0, 0, 0, 0, 0, 0x01, 0x40] = .instr (.jl 0x140) [] := by decide

theorem test_decode_je : decode [0x73, 0, 0, 0, 0, 0, 0, 0, 0x03] = .instr (.je 3) [] := by decide

theorem test_decode_jne : decode [0x74, 0, 0, 0, 0, 0, 0, 0, 0x20] = .instr (.jne 0x20) [] := by decide

theorem test_decode_jge : decode [0x75, 0xFF, 0, 0, 0, 0, 0, 0, 0x40] = .instr (.jge 0xFF00000000000040) [] := by decide

theorem test_decode_jg : decode [0x76, 0, 0, 0, 0, 0, 0, 0, 0x40] = .instr (.jg 0x40) [] := by decide

theorem test_decode_call : decode [0x80, 0, 0, 0, 0, 0, 0, 0, 0x14] = .instr (.call 0x14) [] := by decide

theorem test_decode_ret : decode [0x90] = .instr .ret [] := by decide

theorem test_decode_pushq : decode [0xA0, 0x4F] = .instr (.pushq .rsp) [] := by decide

theorem test_decode_popq : decode [0xB0, 0x0F] = .instr (.popq .rax) [] := by decide

/-- The bits of spec/opcode_table.json's rows: byte 0 is the most significant (log entry 6). -/
theorem test_decodeTableWord_rows :
    decodeTableWord 16 0x2073 = some (.rrmovq .rdi .rbx) ∧ decodeTableWord 16 0xA00F = some (.pushq .rax) ∧
    decodeTableWord 80 0x30F00000000000000005 = some (.irmovq .rax 5) ∧
    decodeTableWord 8 0x90 = some .ret ∧ decodeTableWord 16 0x20F0 = none := by decide

/-- The row's instruction is the first after reset. -/
theorem test_withFetchWord_runs_first :
    after (State.reset.withFetchWord 16 0x6004) (fun t => t.pc == 2 && t.sp == 0x100 && zso t == (false, false, false)) = true := by
  decide

/-! ### Fetch (vectors V-D1, V-D11 to V-D18) -/

theorem test_invalid_opcode_is_INS :
    after (startClear [0x01] []) (fun t => t.stat == .ins && t.pc == 0) = true := by decide

/-- V-D12: an invalid opcode is judged before the length. -/
theorem test_invalid_opcode_at_last_byte_is_INS :
    after (((startClear [] []).placeBytes 0xFF [0xFF]).setPc 0xFF) (fun t => t.stat == .ins && t.pc == 0xFF) = true := by
  decide

/-- V-D15: the length is judged before the register fields. -/
theorem test_truncated_irmovq_is_ADR :
    after (((startClear [] []).placeBytes 0xFE [0x30, 0x00]).setPc 0xFE) (fun t => t.stat == .adr && t.pc == 0xFE) = true := by
  decide

/-- V-D18: a negative pc. -/
theorem test_negative_pc_is_ADR :
    after ((startClear [] []).setPc 0xFFFFFFFFFFFFFFFF) (fun t => t.stat == .adr && t.pc == 0xFFFFFFFFFFFFFFFF) = true := by
  decide

/-- V-D10: the field check does not depend on the condition. -/
theorem test_illegal_field_of_false_cmov_is_INS :
    after (startClear [0x21, 0xF0] []) (fun t => t.stat == .ins && t.pc == 0) = true := by decide

/-! ### Instructions, at most two each -/

/-- V-H1. -/
theorem test_halt :
    after (start [0x00] [(.rax, 7)] true true true) (fun t => t.stat == .hlt && t.pc == 1 && zso t == (true, true, true) && t.readReg .rax == 7) = true := by decide

/-- V-D13. -/
theorem test_halt_at_last_byte :
    after ((startClear [] []).setPc 0xFF) (fun t => t.stat == .hlt && t.pc == 0x100) = true := by decide

/-- V-H2. -/
theorem test_nop :
    after (start [0x10] [(.rax, 7)] true true true) (fun t => t.stat == .aok && t.pc == 1 && zso t == (true, true, true) && t.readReg .rax == 7) = true := by decide

/-- S3. -/
theorem test_rrmovq :
    after (start [0x20, 0x73] [(.rdi, 5), (.rbx, 9)] true false true) (fun t => t.readReg .rbx == 5 && t.readReg .rdi == 5 && t.pc == 2 && zso t == (true, false, true)) = true := by decide

/-- V-M9. -/
theorem test_rrmovq_to_sp :
    after (startClear [0x20, 0x04] [(.rax, 0x80)]) (fun t => t.sp == 0x80) = true := by decide

/-- V-M2, all four rows. -/
theorem test_cmovle :
    [(false, false), (false, true), (true, false), (true, true)].map (fun f =>
      after (start [0x21, 0x12] [(.rcx, 4), (.rdx, 8)] f.1 f.2 false) (fun t => t.readReg .rdx == 4 && t.pc == 2)) =
      [false, true, true, true] := by decide

/-- V-M3, all four rows. -/
theorem test_cmovl :
    [(false, false), (false, true), (true, false), (true, true)].map (fun f =>
      after (start [0x22, 0x12] [(.rcx, 4), (.rdx, 8)] f.1 f.2 false) (fun t => t.readReg .rdx == 4 && t.pc == 2)) =
      [false, true, false, true] := by decide

/-- V-M4, all four rows. -/
theorem test_cmove :
    [(false, false), (false, true), (true, false), (true, true)].map (fun f =>
      after (start [0x23, 0x12] [(.rcx, 4), (.rdx, 8)] f.1 f.2 false) (fun t => t.readReg .rdx == 4 && t.pc == 2)) =
      [false, false, true, true] := by decide

/-- V-M5, all four rows. -/
theorem test_cmovne :
    [(false, false), (false, true), (true, false), (true, true)].map (fun f =>
      after (start [0x24, 0x12] [(.rcx, 4), (.rdx, 8)] f.1 f.2 false) (fun t => t.readReg .rdx == 4 && t.pc == 2)) =
      [true, true, false, false] := by decide

/-- V-M6, all four rows. -/
theorem test_cmovge :
    [(false, false), (false, true), (true, false), (true, true)].map (fun f =>
      after (start [0x25, 0x12] [(.rcx, 4), (.rdx, 8)] f.1 f.2 false) (fun t => t.readReg .rdx == 4 && t.pc == 2)) =
      [true, false, true, false] := by decide

/-- V-M7, all four rows. -/
theorem test_cmovg :
    [(false, false), (false, true), (true, false), (true, true)].map (fun f =>
      after (start [0x26, 0x12] [(.rcx, 4), (.rdx, 8)] f.1 f.2 false) (fun t => t.readReg .rdx == 4 && t.pc == 2)) =
      [true, false, false, false] := by decide

/-- V-I1. -/
theorem test_irmovq :
    after (startClear [0x30, 0xF0, 1, 2, 3, 4, 5, 6, 7, 8] []) (fun t => t.readReg .rax == 0x0102030405060708 && t.pc == 0xA) = true := by decide

/-- V-I5. -/
theorem test_irmovq_keeps_flags :
    after (start [0x30, 0xF0, 0, 0, 0, 0, 0, 0, 0, 0x2A] [] true true true) (fun t => t.readReg .rax == 0x2A && zso t == (true, true, true)) = true := by decide

/-- V-L2, big-endian, below SP by one. -/
theorem test_rmmovq_into_stack_word :
    after (startClear [0x40, 0x34, 0xFF, 0xFF, 0xFF, 0xFF, 0xFF, 0xFF, 0xFF, 0xFF] [(.rbx, 0x1122334455667788), (.rsp, 0xF8)]) (fun t => t.mem.readBytes 0xF6 10 == [0, 0x11, 0x22, 0x33, 0x44, 0x55, 0x66, 0x77, 0x88, 0] && t.pc == 0xA && t.stat == .aok) = true := by decide

/-- V-L1. -/
theorem test_rmmovq_at_sp :
    after (startClear [0x40, 0x04, 0, 0, 0, 0, 0, 0, 0, 0] [(.rax, 0xAA)]) (fun t => t.stat == .adr && t.pc == 0 && t.mem.readByte 0xFF == 0) = true := by decide

/-- V-L8. -/
theorem test_mrmovq_base_is_destination :
    after ((startClear [0x50, 0x33, 0, 0, 0, 0, 0, 0, 0, 8] [(.rbx, 0x80)]).placeBytes 0x88 [1, 2, 3, 4, 5, 6, 7, 8]) (fun t => t.readReg .rbx == 0x0102030405060708 && t.pc == 0xA) = true := by decide

/-- V-L7. -/
theorem test_mrmovq_out_of_bounds :
    after (startClear [0x50, 0x13, 0, 0, 0, 0, 0, 0, 0, 0xF9] [(.rcx, 0x77)]) (fun t => t.stat == .adr && t.readReg .rcx == 0x77 && t.pc == 0) = true := by decide

/-- V-ADD8. The old flags are replaced. -/
theorem test_addq_overflow :
    after (start [0x60, 0x01] [(.rax, 0x8000000000000000), (.rcx, 0xFFFFFFFFFFFFFFFF)] true false true) (fun t => t.readReg .rcx == 0x7FFFFFFFFFFFFFFF && zso t == (false, false, true) && t.pc == 2 && t.readReg .rax == 0x8000000000000000) = true := by decide

/-- V-ADD5. The old flags are replaced. -/
theorem test_addq_carry_is_no_overflow :
    after (start [0x60, 0x01] [(.rax, 0xFFFFFFFFFFFFFFFF), (.rcx, 1)] true false true) (fun t => t.readReg .rcx == 0 && zso t == (true, false, false) && t.pc == 2 && t.readReg .rax == 0xFFFFFFFFFFFFFFFF) = true := by decide

/-- V-SUB2. The old flags are replaced. -/
theorem test_subq_order :
    after (start [0x61, 0x01] [(.rax, 3), (.rcx, 1)] true false true) (fun t => t.readReg .rcx == 0xFFFFFFFFFFFFFFFE && zso t == (false, true, false) && t.pc == 2 && t.readReg .rax == 3) = true := by decide

/-- V-SUB4. The old flags are replaced. -/
theorem test_subq_overflow :
    after (start [0x61, 0x01] [(.rax, 0x8000000000000000), (.rcx, 0)] true false true) (fun t => t.readReg .rcx == 0x8000000000000000 && zso t == (false, true, true) && t.pc == 2 && t.readReg .rax == 0x8000000000000000) = true := by decide

/-- V-AND2. The old flags are replaced. -/
theorem test_andq :
    after (start [0x62, 0x01] [(.rax, 0x8000000000000000), (.rcx, 0xFFFFFFFFFFFFFFFF)] true false true) (fun t => t.readReg .rcx == 0x8000000000000000 && zso t == (false, true, false) && t.pc == 2 && t.readReg .rax == 0x8000000000000000) = true := by decide

/-- V-XOR2. The old flags are replaced. -/
theorem test_xorq :
    after (start [0x63, 0x01] [(.rax, 0x7FFFFFFFFFFFFFFF), (.rcx, 0x8000000000000000)] true false true) (fun t => t.readReg .rcx == 0xFFFFFFFFFFFFFFFF && zso t == (false, true, false) && t.pc == 2 && t.readReg .rax == 0x7FFFFFFFFFFFFFFF) = true := by decide

/-- V-ALU3. -/
theorem test_andq_replaces_flags :
    after (start [0x62, 0x11] [(.rcx, 0xFFFFFFFFFFFFFFFF)] true false true) (fun t => zso t == (false, true, false)) = true := by decide

/-- V-XOR3. -/
theorem test_xorq_clears_register :
    after (startClear [0x63, 0x22] [(.rdx, 0x1234)]) (fun t => t.readReg .rdx == 0 && zso t == (true, false, false)) = true := by decide

/-- V-J0, all four rows. -/
theorem test_jmp :
    [(false, false), (false, true), (true, false), (true, true)].map (fun f =>
      after (start [0x70, 0, 0, 0, 0, 0, 0, 0, 0x40] [] f.1 f.2 true) (fun t => t.pc == 0x40)) =
      [true, true, true, true] := by decide

/-- V-J1, all four rows. -/
theorem test_jle :
    [(false, false), (false, true), (true, false), (true, true)].map (fun f =>
      after (start [0x71, 0, 0, 0, 0, 0, 0, 0, 0x40] [] f.1 f.2 true) (fun t => t.pc == 0x40)) =
      [false, true, true, true] := by decide

/-- V-J2, all four rows. -/
theorem test_jl :
    [(false, false), (false, true), (true, false), (true, true)].map (fun f =>
      after (start [0x72, 0, 0, 0, 0, 0, 0, 0, 0x40] [] f.1 f.2 true) (fun t => t.pc == 0x40)) =
      [false, true, false, true] := by decide

/-- V-J3, all four rows. -/
theorem test_je :
    [(false, false), (false, true), (true, false), (true, true)].map (fun f =>
      after (start [0x73, 0, 0, 0, 0, 0, 0, 0, 0x40] [] f.1 f.2 true) (fun t => t.pc == 0x40)) =
      [false, false, true, true] := by decide

/-- V-J4, all four rows. -/
theorem test_jne :
    [(false, false), (false, true), (true, false), (true, true)].map (fun f =>
      after (start [0x74, 0, 0, 0, 0, 0, 0, 0, 0x40] [] f.1 f.2 true) (fun t => t.pc == 0x40)) =
      [true, true, false, false] := by decide

/-- V-J5, all four rows. -/
theorem test_jge :
    [(false, false), (false, true), (true, false), (true, true)].map (fun f =>
      after (start [0x75, 0, 0, 0, 0, 0, 0, 0, 0x40] [] f.1 f.2 true) (fun t => t.pc == 0x40)) =
      [true, false, true, false] := by decide

/-- V-J6, all four rows. -/
theorem test_jg :
    [(false, false), (false, true), (true, false), (true, true)].map (fun f =>
      after (start [0x76, 0, 0, 0, 0, 0, 0, 0, 0x40] [] f.1 f.2 true) (fun t => t.pc == 0x40)) =
      [true, false, false, false] := by decide

/-- V-J4, not taken. -/
theorem test_jne_falls_through_by_nine :
    after (start [0x74, 0, 0, 0, 0, 0, 0, 0, 0x40] [] true false false) (fun t => t.pc == 9) = true := by decide

/-- V-C6. -/
theorem test_call :
    after (((startClear [] []).placeBytes 0xA [0x80, 0, 0, 0, 0, 0, 0, 0, 0x14]).setPc 0xA) (fun t => t.mem.readBytes 0xF8 8 == [0, 0, 0, 0, 0, 0, 0, 0x13] && t.sp == 0xF8 && t.pc == 0x14) = true := by decide

/-- V-C1. -/
theorem test_call_out_of_bounds :
    after (startClear [0x80, 0, 0, 0, 0, 0, 0, 0, 0x40] [(.rsp, 0x108)]) (fun t => t.stat == .adr && t.sp == 0x108 && t.pc == 0) = true := by decide

/-- V-C7. -/
theorem test_ret :
    after ((startClear [0x90] [(.rsp, 0xF8)]).placeBytes 0xF8 [0, 0, 0, 0, 0, 0, 0, 0x13]) (fun t => t.pc == 0x13 && t.sp == 0x100 && t.mem.readByte 0xFF == 0x13) = true := by decide

/-- V-C4. -/
theorem test_ret_empty_stack :
    after (startClear [0x90] []) (fun t => t.stat == .adr && t.sp == 0x100 && t.pc == 0) = true := by decide

/-- V-P1. -/
theorem test_pushq_sp_pushes_old_value :
    after (startClear [0xA0, 0x4F] []) (fun t => t.mem.readBytes 0xF8 8 == [0, 0, 0, 0, 0, 0, 1, 0] && t.sp == 0xF8 && t.pc == 2) = true := by decide

/-- V-P8. -/
theorem test_pushq_wraps :
    after (startClear [0xA0, 0x0F] [(.rsp, 0x8000000000000004)]) (fun t => t.stat == .adr && t.sp == 0x8000000000000004) = true := by decide

/-- V-P2. -/
theorem test_popq_sp_keeps_loaded_word :
    after ((startClear [0xB0, 0x4F] [(.rsp, 0xF0)]).placeBytes 0xF0 [0, 0, 0, 0, 0, 0, 0, 0x40]) (fun t => t.sp == 0x40 && t.pc == 2) = true := by decide

/-- V-P3. -/
theorem test_popq_empty_stack :
    after (startClear [0xB0, 0x0F] [(.rax, 5)]) (fun t => t.stat == .adr && t.readReg .rax == 5 && t.sp == 0x100) = true := by decide

/-- V-R3: reset keeps the memory. -/
theorem test_callerReset_keeps_memory :
    let t := callerReset 0x40 (Vector.replicate 15 7) { zf := true, sf := true, of := true }
      (((startClear [0xFF] []).setStat .ins).setPc 9)
    t.stat = .aok ∧ t.pc = 0x40 ∧ t.sp = 0x100 ∧ t.mem.readByte 0 = 0xFF ∧ t.readReg .rax = 7 := by decide

/-! ### Witnesses: a state and operands that meet the hypotheses of each statement, one for each of its clauses, at the edges of their ranges -/

theorem test_witness_StepRunsDecodedInstruction :
    let s := (startClear [] []).setPc 0xFF
    s.stat = .aok ∧ s.inBounds s.pc 1 = true ∧ decode (s.mem.readBytes s.pc.toNat 1) = .instr .halt [] := by decide

theorem test_witness_DecodedBytesAreCanonical :
    decode [0xA0, 0x0F, 0x99] = .instr (.pushq .rax) [0x99] := by decide

theorem test_witness_FetchDependsOnlyOnCode :
    let s := startClear [0x60, 0x01] []
    let t := (start [0x60, 0x01] [(.rax, 1)] true true true).placeBytes 10 [0xFF]
    t.pc = s.pc ∧ t.memMax = s.memMax ∧ t ≠ s ∧
    ∀ k < 10, t.mem.readByte (s.pc.toNat + k) = s.mem.readByte (s.pc.toNat + k) := by decide

theorem test_witness_InvalidOpcodeStops :
    let s := ((startClear [] []).placeBytes 0xFF [0xFF]).setPc 0xFF
    s.stat = .aok ∧ 0 ≤ s.pc.toInt ∧ s.pc.toInt < s.memMax ∧
    s.mem.readByte s.pc.toNat ∉ ([0x00, 0x10, 0x20, 0x21, 0x22, 0x23, 0x24, 0x25, 0x26, 0x30, 0x40, 0x50, 0x60,
      0x61, 0x62, 0x63, 0x70, 0x71, 0x72, 0x73, 0x74, 0x75, 0x76, 0x80, 0x90, 0xA0, 0xB0] : List Byte) := by decide

theorem test_witness_PcOutOfMemoryStops :
    let s := (startClear [] []).setPc 0x100
    let n := (startClear [] []).setPc 0xFFFFFFFFFFFFFFFF
    (s.stat = .aok ∧ (s.memMax : Int) ≤ s.pc.toInt) ∧ (n.stat = .aok ∧ n.pc.toInt < 0) := by decide

theorem test_witness_TruncatedInstructionStops :
    let s := ((startClear [] []).placeBytes 0xF7 [0x30]).setPc 0xF7
    s.stat = .aok ∧ 0 ≤ s.pc.toInt ∧ s.pc.toInt < s.memMax ∧ s.mem.readByte s.pc.toNat = Opcode.irmovq.toByte ∧
    (s.memMax : Int) < s.pc.toInt + Opcode.irmovq.length := by decide

theorem test_witness_IllegalRegisterFieldStops :
    let a := ((startClear [] []).placeBytes 0xFE [0x20, 0xF0]).setPc 0xFE
    let b := startClear [0x30, 0x00] []
    let c := startClear [0x60, 0x1F] []
    let d := startClear [0xB0, 0x03] []
    (a.stat = .aok ∧ 0 ≤ a.pc.toInt ∧ a.pc.toInt + Opcode.rrmovq.length ≤ a.memMax ∧
      a.mem.readByte a.pc.toNat = Opcode.rrmovq.toByte ∧ Opcode.rrmovq.roleA = .register ∧
      (a.mem.readByte (a.pc.toNat + 1)).extractLsb' 4 4 = 0xF) ∧
    (b.stat = .aok ∧ 0 ≤ b.pc.toInt ∧ b.pc.toInt + Opcode.irmovq.length ≤ b.memMax ∧
      b.mem.readByte b.pc.toNat = Opcode.irmovq.toByte ∧ Opcode.irmovq.roleA = .sentinel ∧
      (b.mem.readByte (b.pc.toNat + 1)).extractLsb' 4 4 ≠ 0xF) ∧
    (c.stat = .aok ∧ 0 ≤ c.pc.toInt ∧ c.pc.toInt + Opcode.addq.length ≤ c.memMax ∧
      c.mem.readByte c.pc.toNat = Opcode.addq.toByte ∧ Opcode.addq.roleB = .register ∧
      (c.mem.readByte (c.pc.toNat + 1)).extractLsb' 0 4 = 0xF) ∧
    (d.stat = .aok ∧ 0 ≤ d.pc.toInt ∧ d.pc.toInt + Opcode.popq.length ≤ d.memMax ∧
      d.mem.readByte d.pc.toNat = Opcode.popq.toByte ∧ Opcode.popq.roleB = .sentinel ∧
      (d.mem.readByte (d.pc.toNat + 1)).extractLsb' 0 4 ≠ 0xF) := by decide

theorem test_witness_StopsArePrecise_adr :
    ∃ t, step (startClear [0x90] []) = .next t ∧ t.stat = .adr := ⟨_, rfl, by decide⟩

theorem test_witness_StopsArePrecise_ins :
    ∃ t, step (startClear [0xFF] []) = .next t ∧ t.stat = .ins := ⟨_, rfl, by decide⟩

theorem test_witness_StopsArePrecise_hlt :
    ∃ t, step ((startClear [] []).setPc 0xFF) = .next t ∧ t.stat = .hlt := ⟨_, rfl, by decide⟩

theorem test_witness_StoppedEngineTakesNoStep :
    (State.reset.setStat .hlt).stat ≠ .aok := by decide

theorem test_witness_RunningEngineAlwaysSteps :
    State.reset.stat = .aok := by decide

/-- The second clause: the run has ended. -/
theorem test_witness_RunsReachAState :
    ∃ t, callerRun 1 State.reset = .next t ∧ t.stat ≠ .aok := ⟨_, rfl, by decide⟩

theorem test_witness_StepKeepsInvariant :
    let s := startClear [0xA0, 0x4F] []
    s.Inv ∧ ∃ t, step s = .next t := ⟨by decide, _, rfl⟩

theorem test_witness_ResetMeetsInvariant :
    validConfig { defaultConfig with memMax := 2 ^ 63 - 1, image := [(0, 0x10), (0xFFFF, 0x01)] } := by decide

theorem test_witness_CallerKeepsInvariant :
    State.reset.Inv ∧ (∃ t, callerLoad 0xFF 0x01 State.reset = .next t) ∧ ∃ t, callerRun 2 State.reset = .next t := ⟨by decide, ⟨_, rfl⟩, _, rfl⟩

theorem test_witness_ResetLeavesSpecValues :
    (.rax : Reg) ≠ spId ∧ (.r14 : Reg) ≠ spId := by decide

theorem test_witness_LoadWritesInsideMemoryOnly :
    0xFF < State.reset.memMax ∧ State.reset.memMax ≤ 0x100 := by decide

theorem test_witness_FlagsWrittenOnlyByAlu :
    ∃ t, step (startClear [0x63, 0x22] []) = .next t ∧ t.flags ≠ (startClear [0x63, 0x22] []).flags := ⟨_, rfl, by decide⟩

theorem test_witness_MemoryWrittenOnlyByStores :
    ∃ t, step (startClear [0xA0, 0x4F] []) = .next t ∧ t.mem.readByte 0xFE ≠ (startClear [0xA0, 0x4F] []).mem.readByte 0xFE := ⟨_, rfl, by decide⟩

/-- The store at SP - 1 writes up to SP + 6; SP + 7 is the first byte protected. -/
theorem test_witness_StoreGuardProtectsStack :
    let s := startClear [0x40, 0x34, 0xFF, 0xFF, 0xFF, 0xFF, 0xFF, 0xFF, 0xFF, 0xFF] [(.rbx, 1), (.rsp, 0xF8)]
    (∃ t, step s = .next t) ∧ s.sp.toInt + 7 ≤ (0xFF : Nat) ∧ s.memMax ≤ 0x100 := ⟨⟨_, rfl⟩, by decide, by decide⟩

theorem test_witness_OnlyListedRegistersAreWritten :
    ∃ t, exec (.popq .rax) (startClear [] [(.rsp, 0xF8)]) = .next t := ⟨_, rfl⟩

theorem test_witness_OverflowFlagIsNeverRead :
    ∃ t, callerRun 2 (start [0x72, 0, 0, 0, 0, 0, 0, 0, 0x40] [] false true true) = .next t := ⟨_, rfl⟩

theorem test_witness_SequentialPcNeverWraps :
    let s := State.reset.setPc 0xF6
    s.Inv ∧ s.inBounds s.pc 10 = true := by decide

theorem test_witness_LoadSeesLastStore :
    ∃ t, State.reset.memWrite8 0xF7 0x1122334455667788 = some t ∧ State.reset.Inv ∧ (0xF7 : Word).toInt + 9 ≤ State.reset.memMax := ⟨_, rfl, by decide, by decide⟩

theorem test_witness_StoreIsSeenByNextFetch :
    let s := startClear [0x40, 0x03, 0, 0, 0, 0, 0, 0, 0, 0x0A] [(.rax, 0x1000000000000000)]
    s.stat = .aok ∧ (∃ t, exec (.rmmovq .rax .rbx 0x0A) s = .next t ∧ t.stat = .aok) ∧
    s.readReg .rbx + 0x0A = s.pc + 10 ∧ encode .nop = (constBytes (s.readReg .rax)).take Instr.nop.length := ⟨by decide, ⟨_, rfl, by decide⟩, by decide, by decide⟩

theorem test_witness_RegistersAreDistinctCells :
    Reg.toNibble .r14 = Reg.toNibble .r14 ∧ (0xE : Nibble) ≠ 0xF := by decide

theorem test_witness_ConditionsReadZfAndSf :
    7 ≤ (0x7 : Nibble).toNat ∧ 7 ≤ (0xF : Nibble).toNat := by decide

/-- Each condition true in one state and false in another; the same for the jumps. -/
theorem test_witness_ConditionalMovesCopyWhenTrue :
    let c := (start [] [] false false false).flags
    let n := (start [] [] false true false).flags
    let z := (start [] [] true false false).flags
    ((n.sf = true ∨ n.zf = true) ∧ ¬(c.sf = true ∨ c.zf = true)) ∧ (n.sf = true ∧ ¬c.sf = true) ∧
    (z.zf = true ∧ ¬c.zf = true) ∧ (c.zf = false ∧ ¬z.zf = false) ∧ (c.sf = false ∧ ¬n.sf = false) ∧
    ((c.sf = false ∧ c.zf = false) ∧ ¬(z.sf = false ∧ z.zf = false)) := by decide

theorem test_witness_ConditionalJumpsGoWhenTrue :
    let c := (start [] [] false false true).flags
    let n := (start [] [] false true true).flags
    let z := (start [] [] true false true).flags
    ((z.sf = true ∨ z.zf = true) ∧ ¬(c.sf = true ∨ c.zf = true)) ∧ (n.sf = true ∧ ¬z.sf = true) ∧
    (z.zf = true ∧ ¬n.zf = true) ∧ (n.zf = false ∧ ¬z.zf = false) ∧ (z.sf = false ∧ ¬n.sf = false) ∧
    ((c.sf = false ∧ c.zf = false) ∧ ¬(n.sf = false ∧ n.zf = false)) := by decide

/-- The last word of the memory. -/
theorem test_witness_RmmovqStoresBelowStackPointer :
    let s := startClear [] [(.rbx, 0xF0)]
    let ea := s.effectiveAddress .rbx 8
    ea.toInt < s.sp.toInt ∧ 0 ≤ ea.toInt ∧ ea.toInt + 8 ≤ s.memMax := by decide

/-- One state for each clause: at SP, below 0, past the end. -/
theorem test_witness_RmmovqStopsAtStackPointer :
    let s := startClear [] [(.rbx, 0xF8), (.rsp, 0xF8)]
    let r := startClear [] []
    s.sp.toInt ≤ (s.readReg .rbx + 0).toInt ∧ (r.readReg .rbx + 0xFFFFFFFFFFFFFFFF).toInt < 0 ∧
    (r.memMax : Int) < (r.readReg .rbx + 0xF9).toInt + 8 := by decide

theorem test_witness_MrmovqLoadsWord :
    let s := startClear [] [(.rsp, 0xF0)]
    0 ≤ (s.readReg .rsp + 8).toInt ∧ (s.readReg .rsp + 8).toInt + 8 ≤ s.memMax := by decide

theorem test_witness_MrmovqStopsOutOfBounds :
    let s := startClear [] []
    (s.readReg .rbx + 0xFFFFFFFFFFFFFFFF).toInt < 0 ∧ (s.memMax : Int) < (s.readReg .rbx + 0xF9).toInt + 8 := by decide

/-- The third clause: a jump to itself. -/
theorem test_witness_JmpSetsPc :
    let s := startClear [0x70, 0, 0, 0, 0, 0, 0, 0, 0] []
    s.stat = .aok ∧ s.codeAtPc (encode (.jmp s.pc)) := by decide

/-- SP at both ends of its range. -/
theorem test_witness_CallPushesReturnAddress :
    let a := startClear [] [(.rsp, 8)]
    let b := startClear [] []
    (8 ≤ a.sp.toInt ∧ a.sp.toInt ≤ a.memMax) ∧ (8 ≤ b.sp.toInt ∧ b.sp.toInt ≤ b.memMax) := by decide

/-- SP at both ends of its range. -/
theorem test_witness_PushqStoresOldValue :
    let a := startClear [] [(.rsp, 8)]
    let b := startClear [] []
    (8 ≤ a.sp.toInt ∧ a.sp.toInt ≤ a.memMax) ∧ (8 ≤ b.sp.toInt ∧ b.sp.toInt ≤ b.memMax) := by decide

/-- SP at both ends of its range. -/
theorem test_witness_PopRestoresPush :
    let a := startClear [] [(.rsp, 8)]
    let b := startClear [] []
    (8 ≤ a.sp.toInt ∧ a.sp.toInt ≤ a.memMax) ∧ (8 ≤ b.sp.toInt ∧ b.sp.toInt ≤ b.memMax) ∧ (.rax : Reg) ≠ spId := by decide

/-- SP at both ends of its range. -/
theorem test_witness_RetUndoesCall :
    let a := startClear [] [(.rsp, 8)]
    let b := startClear [] []
    (8 ≤ a.sp.toInt ∧ a.sp.toInt ≤ a.memMax) ∧ (8 ≤ b.sp.toInt ∧ b.sp.toInt ≤ b.memMax) := by decide

theorem test_witness_PushesStopWithoutRoom :
    (startClear [] [(.rsp, 7)]).sp.toInt < 8 ∧
    ((startClear [] []).memMax : Int) < (startClear [] [(.rsp, 0x101)]).sp.toInt := by decide

theorem test_witness_RetPopsPc :
    let a := startClear [] [(.rsp, 0)]
    let b := startClear [] [(.rsp, 0xF8)]
    (0 ≤ a.sp.toInt ∧ a.sp.toInt + 8 ≤ a.memMax) ∧ (0 ≤ b.sp.toInt ∧ b.sp.toInt + 8 ≤ b.memMax) := by decide

theorem test_witness_PopqLoadsAndWinsOverSp :
    let a := startClear [] [(.rsp, 0)]
    let b := startClear [] [(.rsp, 0xF8)]
    (0 ≤ a.sp.toInt ∧ a.sp.toInt + 8 ≤ a.memMax) ∧ (0 ≤ b.sp.toInt ∧ b.sp.toInt + 8 ≤ b.memMax) ∧ (.rax : Reg) ≠ spId := by decide

theorem test_witness_PopsStopOutOfBounds :
    (startClear [] [(.rsp, 0xFFFFFFFFFFFFFFFF)]).sp.toInt < 0 ∧
    ((startClear [] []).memMax : Int) < (startClear [] [(.rsp, 0xF9)]).sp.toInt + 8 := by decide

end Sys2Proof.Tests
end

/-! Proofs about the encoding: how a format lays out its bytes, and what the opcode byte says of the length. -/

namespace Sys2Proof

/-! ### The encoding by format (30_encoding.md R80) -/

section EncodeByFormat

variable {i : Instr}

theorem encode_of_format_n (h : i.toFields.op.format = .n) : encode i = [i.toFields.op.toByte] := by
  simp only [encode, Fields.bytes, h]

theorem encode_of_format_r (h : i.toFields.op.format = .r) :
    encode i = [i.toFields.op.toByte, i.toFields.rA ++ i.toFields.rB] := by
  simp only [encode, Fields.bytes, h, pairByte]

theorem encode_of_format_rc (h : i.toFields.op.format = .rc) :
    encode i = i.toFields.op.toByte :: (i.toFields.rA ++ i.toFields.rB) :: constBytes i.toFields.valC := by
  simp only [encode, Fields.bytes, h, pairByte]

theorem encode_of_format_c (h : i.toFields.op.format = .c) :
    encode i = i.toFields.op.toByte :: constBytes i.toFields.valC := by
  simp only [encode, Fields.bytes, h]

end EncodeByFormat

/-- Settles O6, format by format: `rfl` reads off the format of each instruction, and the format's lemma gives its
bytes. -/
theorem formatsLayOutBytes : Obligations.FormatsLayOutBytes := by
  unfold Obligations.FormatsLayOutBytes
  refine ⟨?formatN, ?formatR, ?formatRWithSentinel, ?formatRC, ?formatC⟩
  case formatN => and_intros <;> exact encode_of_format_n rfl
  case formatR => intro rA rB p; and_intros <;> exact encode_of_format_r rfl
  case formatRWithSentinel => intro rA p; and_intros <;> exact encode_of_format_r rfl
  case formatRC => intro rA rB v; and_intros <;> exact encode_of_format_rc rfl
  case formatC => intro v c; and_intros <;> exact encode_of_format_c rfl

/-! ### The length by opcode byte (30_encoding.md R87) -/

/-- The bytes that are no opcode are those outside the opcode map (30_encoding.md R85, R88). -/
theorem Opcode.ofByte?_eq_none_iff_notMem {b : Byte} : Opcode.ofByte? b = none ↔
    b ∉ ([0x00, 0x10, 0x20, 0x21, 0x22, 0x23, 0x24, 0x25, 0x26, 0x30, 0x40, 0x50, 0x60, 0x61, 0x62, 0x63,
      0x70, 0x71, 0x72, 0x73, 0x74, 0x75, 0x76, 0x80, 0x90, 0xA0, 0xB0] : List Byte) := by
  revert b
  decide

/-- Settles O7: the byte of an opcode stands in the row of that opcode's length, and a byte outside the opcode map
stands in no row. -/
theorem opcodeAloneFixesLength : Obligations.OpcodeAloneFixesLength := by
  unfold Obligations.OpcodeAloneFixesLength
  intro b
  cases hb : Opcode.ofByte? b with
  | some op =>
    obtain rfl := Opcode.toByte_of_ofByte? hb
    cases op <;> decide
  | none =>
    have hout := Opcode.ofByte?_eq_none_iff_notMem.mp hb
    simp only [List.mem_cons, List.not_mem_nil, or_false] at hout ⊢
    rw [if_neg, if_neg, if_neg, if_neg, Option.map_none] <;> bv_omega

end Sys2Proof

/-! Proofs about `nop`, and the frame of an update of pc. -/

namespace Sys2Proof.Machine

/-- Moving pc touches nothing else: the frame of every instruction that only assigns pc. -/
theorem State.onlyRegs_setPc (s : State) (target : Word) (changed : List Reg) :
    s.onlyRegs (s.setPc target) changed :=
  ⟨fun r _ => s.readReg_setPc target r, s.setPc_flags target, s.setPc_stat target,
    s.setPc_memMax target, fun a => congrArg (·.readByte a) (s.setPc_mem target)⟩

theorem exec_nop (s : State) : exec .nop s = .next (s.setPc (s.pc + 1)) := rfl

/-- Settles O33: `nop` is one update of pc, and such an update has the frame of `State.onlyRegs_setPc`. -/
theorem nopOnlyAdvancesPc : Obligations.NopOnlyAdvancesPc := by
  unfold Obligations.NopOnlyAdvancesPc
  refine ⟨encode_of_format_n rfl, fun s => ⟨s.setPc (s.pc + 1), exec_nop s, ?advances, ?frame⟩⟩
  case advances => exact s.setPc_pc (s.pc + 1)
  case frame => exact s.onlyRegs_setPc (s.pc + 1) []

end Sys2Proof.Machine

/-! Proofs about the condition predicate of the moves and jumps (41_moves.md R115). -/

namespace Sys2Proof.Machine

/-! ### The table of conditions -/

section CondHolds

variable (f : Flags)

@[simp] theorem Cond.holds_always : Cond.always.holds f = true := rfl

@[simp] theorem Cond.holds_le_iff : Cond.le.holds f = true ↔ f.sf = true ∨ f.zf = true :=
  Bool.or_eq_true_iff

@[simp] theorem Cond.holds_l_iff : Cond.l.holds f = true ↔ f.sf = true := Iff.rfl

@[simp] theorem Cond.holds_e_iff : Cond.e.holds f = true ↔ f.zf = true := Iff.rfl

@[simp] theorem Cond.holds_ne_iff : Cond.ne.holds f = true ↔ f.zf = false :=
  Iff.of_eq (Bool.not_eq_true' f.zf)

@[simp] theorem Cond.holds_ge_iff : Cond.ge.holds f = true ↔ f.sf = false :=
  Iff.of_eq (Bool.not_eq_true' f.sf)

@[simp] theorem Cond.holds_g_iff : Cond.g.holds f = true ↔ f.sf = false ∧ f.zf = false := by
  simp only [holds, Bool.and_eq_true, Bool.not_eq_true']

/-- No condition looks at OF (10_state.md R31). -/
@[simp] theorem Cond.holds_setOf (c : Cond) (o : Bool) : c.holds { f with of := o } = c.holds f := by
  cases c <;> rfl

end CondHolds

/-! ### The function codes that have a condition -/

theorem Cond.ofCode?_eq_none_iff {fn : Nibble} : Cond.ofCode? fn = none ↔ 7 ≤ fn.toNat := by
  revert fn
  decide

/-- The moves `0x2_` and the jumps `0x7_` are opcodes where their function code has a condition (30_encoding.md R85). -/
theorem ofByte?_append_eq_none_iff {hi fn : Nibble} (hhi : hi = 2 ∨ hi = 7) :
    Opcode.ofByte? (hi ++ fn) = none ↔ Cond.ofCode? fn = none := by
  revert fn
  rcases hhi with rfl | rfl
  case inl => decide
  case inr => decide

/-- Settles O34: each code's condition has its row of the table, OF takes part in none, and a code without a
condition makes no opcode of either kind. -/
theorem conditionsReadZfAndSf : Obligations.ConditionsReadZfAndSf := by
  unfold Obligations.ConditionsReadZfAndSf
  refine ⟨fun f => ⟨⟨.always, rfl, Cond.holds_always f⟩, ⟨.le, rfl, Cond.holds_le_iff f⟩,
    ⟨.l, rfl, Cond.holds_l_iff f⟩, ⟨.e, rfl, Cond.holds_e_iff f⟩, ⟨.ne, rfl, Cond.holds_ne_iff f⟩,
    ⟨.ge, rfl, Cond.holds_ge_iff f⟩, ⟨.g, rfl, Cond.holds_g_iff f⟩⟩,
    fun c f o => Cond.holds_setOf f c o, fun fn hfn => ?invalid⟩
  case invalid =>
    have hnone : Cond.ofCode? fn = none := Cond.ofCode?_eq_none_iff.mpr hfn
    exact ⟨hnone, (ofByte?_append_eq_none_iff (.inl rfl)).mpr hnone,
      (ofByte?_append_eq_none_iff (.inr rfl)).mpr hnone⟩

end Sys2Proof.Machine

/-! Proofs about the decoder: the round trip with the encoder in both directions, the legality of register fields,
and the value of a constant. -/

namespace Sys2Proof

/-! ### Fields taken from bytes, format by format (30_encoding.md R80, R90 step 5) -/

section TakeFieldsByFormat

variable {op : Opcode} {rest : List Byte}

theorem takeFields_of_format_n (h : op.format = .n) :
    takeFields op rest = some ({ op, rA := rNone, rB := rNone, valC := 0 }, rest) := by
  simp only [takeFields, h]

theorem takeFields_of_format_r (h : op.format = .r) (a b : Nibble) :
    takeFields op ((a ++ b) :: rest) = some ({ op, rA := a, rB := b, valC := 0 }, rest) := by
  have hA : pairHigh (a ++ b) = a := pairHigh_pairByte a b
  have hB : pairLow (a ++ b) = b := pairLow_pairByte a b
  simp only [takeFields, h, hA, hB]

theorem takeFields_of_format_rc (h : op.format = .rc) (a b : Nibble) (v : Word) :
    takeFields op ((a ++ b) :: (constBytes v ++ rest)) = some ({ op, rA := a, rB := b, valC := v }, rest) := by
  have hA : pairHigh (a ++ b) = a := pairHigh_pairByte a b
  have hB : pairLow (a ++ b) = b := pairLow_pairByte a b
  simp only [takeFields, h, hA, hB, constBytes, List.cons_append, List.nil_append, constWord_slices]

theorem takeFields_of_format_c (h : op.format = .c) (v : Word) :
    takeFields op (constBytes v ++ rest) = some ({ op, rA := rNone, rB := rNone, valC := v }, rest) := by
  simp only [takeFields, h, constBytes, List.cons_append, List.nil_append, constWord_slices]

end TakeFieldsByFormat

/-! ### The round trip (30_encoding.md R97 (a), section 5) -/

/-- The bytes of an encoding after its opcode byte give the instruction's fields back. -/
theorem takeFields_tail_encode (i : Instr) (rest : List Byte) :
    takeFields i.toFields.op ((encode i).tail ++ rest) = some (i.toFields, rest) := by
  cases i
  case halt | nop | ret => exact takeFields_of_format_n rfl
  case rrmovq | cmovle | cmovl | cmove | cmovne | cmovge | cmovg | addq | subq | andq | xorq | pushq | popq =>
    exact takeFields_of_format_r rfl _ _
  case irmovq | rmmovq | mrmovq => exact takeFields_of_format_rc rfl _ _ _
  case jmp | jle | jl | je | jne | jge | jg | call => exact takeFields_of_format_c rfl _

/-- Bytes whose fields stand for an instruction decode to it. -/
theorem decode_eq_instr_of_takeFields {f : Fields} {bs rest : List Byte} {i : Instr}
    (hf : takeFields f.op bs = some (f, rest)) (hi : f.toInstr? = some i) :
    decode (f.op.toByte :: bs) = .instr i rest := by
  simp only [decode, Opcode.ofByte?_toByte, hf, hi]

theorem decode_encode_append (i : Instr) (rest : List Byte) : decode (encode i ++ rest) = .instr i rest := by
  obtain ⟨bs, hbs⟩ := encode_head i
  have hf := takeFields_tail_encode i rest
  rw [hbs, List.tail_cons] at hf
  rw [hbs, List.cons_append]
  exact decode_eq_instr_of_takeFields hf (toInstr?_toFields i)

theorem decode_encode (i : Instr) : decode (encode i) = .instr i [] := by
  simpa only [List.append_nil] using decode_encode_append i []

theorem eq_encode_append_of_decode {bytes rest : List Byte} {i : Instr} (h : decode bytes = .instr i rest) :
    bytes = encode i ++ rest := by
  obtain ⟨bs, f, rfl, hf, hi⟩ := decode_eq_instr h
  calc f.op.toByte :: bs = f.bytes ++ rest := (takeFields_bytes hf).2
    _ = encode i ++ rest := by rw [encode, (toFields_of_toInstr? hi).2]

/-! ### Legal register fields (30_encoding.md R89) -/

theorem Reg.isSome_ofNibble? (n : Nibble) : (Reg.ofNibble? n).isSome = (n != 0xF) := by
  revert n
  decide

theorem isSome_twoRegs (a b : Nibble) (mk : Reg → Reg → Instr) :
    (twoRegs a b mk).isSome = (a != 0xF && b != 0xF) := by
  rw [← Reg.isSome_ofNibble? a, ← Reg.isSome_ofNibble? b, twoRegs]
  cases Reg.ofNibble? a <;> cases Reg.ofNibble? b <;> rfl

theorem isSome_oneReg (field sentinel : Nibble) (mk : Reg → Instr) :
    (oneReg field sentinel mk).isSome = (field != 0xF && sentinel == 0xF) := by
  rw [← Reg.isSome_ofNibble? field, oneReg]
  by_cases h : sentinel = rNone
  · simp [h, rNone]
  · have hne : (sentinel == 0xF) = false := beq_eq_false_iff_ne.mpr h
    rw [if_neg h, hne, Bool.and_false, Option.isSome_none]

/-- Fields stand for an instruction exactly when they pass the check of R89. -/
theorem isSome_toInstr? (f : Fields) : f.toInstr?.isSome = f.wellFormed := by
  obtain ⟨op, a, b, v⟩ := f
  cases op
  case halt | nop | ret | jmp | jle | jl | je | jne | jge | jg | call => rfl
  case rrmovq | cmovle | cmovl | cmove | cmovne | cmovge | cmovg | rmmovq | mrmovq | addq | subq | andq | xorq =>
    exact isSome_twoRegs a b _
  case irmovq => exact (isSome_oneReg b a _).trans (Bool.and_comm ..)
  case pushq | popq => exact isSome_oneReg a b _

theorem Instr.wellFormed (i : Instr) : i.WellFormed := by
  rw [Instr.WellFormed, ← isSome_toInstr?, toInstr?_toFields, Option.isSome_some]

/-- Settles O3: the encoder lays the fields out as the decoder takes them, and they stand for the instruction. -/
theorem decodeEncodeRoundTrip : Obligations.DecodeEncodeRoundTrip := by
  unfold Obligations.DecodeEncodeRoundTrip
  exact fun i rest => ⟨i.wellFormed, decode_encode_append i rest⟩

/-- Settles O4: each step of the decoder can be read backwards, because its register fields are strict. -/
theorem decodedBytesAreCanonical : Obligations.DecodedBytesAreCanonical := by
  unfold Obligations.DecodedBytesAreCanonical
  exact fun _ _ _ h => eq_encode_append_of_decode h

/-- Settles O5, by the roles of the two register fields. -/
theorem decodeAcceptsExactlyLegalFields : Obligations.DecodeAcceptsExactlyLegalFields := by
  unfold Obligations.DecodeAcceptsExactlyLegalFields
  exact isSome_toInstr?

/-! ### Constants (30_encoding.md R83) -/

/-- A byte put after a bit vector is its last digit in base 256. -/
theorem toNat_append_byte {n : Nat} (x : BitVec n) (b : Byte) : (x ++ b).toNat = x.toNat * 256 + b.toNat := by
  rw [BitVec.toNat_append, ← Nat.shiftLeft_add_eq_or_of_lt b.isLt, Nat.shiftLeft_eq]

theorem toNat_constWord (c0 c1 c2 c3 c4 c5 c6 c7 : Byte) :
    (constWord c0 c1 c2 c3 c4 c5 c6 c7).toNat =
      ((((((c0.toNat * 256 + c1.toNat) * 256 + c2.toNat) * 256 + c3.toNat) * 256 + c4.toNat) * 256 +
        c5.toNat) * 256 + c6.toNat) * 256 + c7.toNat := by
  simp only [constWord, toNat_append_byte]

section DecodeConstant

variable (i : Instr) {c0 c1 c2 c3 c4 c5 c6 c7 : Byte} (rest : List Byte)

theorem decode_constant_of_format_rc (h : i.toFields.op.format = .rc)
    (hv : i.toFields.valC = constWord c0 c1 c2 c3 c4 c5 c6 c7) :
    decode (i.toFields.op.toByte :: (i.toFields.rA ++ i.toFields.rB) ::
      c0 :: c1 :: c2 :: c3 :: c4 :: c5 :: c6 :: c7 :: rest) = .instr i rest := by
  have hdec := decode_encode_append i rest
  rwa [encode_of_format_rc h, hv, constBytes_constWord] at hdec

theorem decode_constant_of_format_c (h : i.toFields.op.format = .c)
    (hv : i.toFields.valC = constWord c0 c1 c2 c3 c4 c5 c6 c7) :
    decode (i.toFields.op.toByte :: c0 :: c1 :: c2 :: c3 :: c4 :: c5 :: c6 :: c7 :: rest) = .instr i rest := by
  have hdec := decode_encode_append i rest
  rwa [encode_of_format_c h, hv, constBytes_constWord] at hdec

end DecodeConstant

/-- Settles O8: the bytes given are the encodings of the instructions named, whose constant is `constWord`. -/
theorem constantsAreBigEndian : Obligations.ConstantsAreBigEndian := by
  unfold Obligations.ConstantsAreBigEndian
  intro c0 c1 c2 c3 c4 c5 c6 c7
  exact ⟨constWord c0 c1 c2 c3 c4 c5 c6 c7, toNat_constWord .., fun rA rB rest =>
    ⟨decode_constant_of_format_rc (.irmovq rB _) rest rfl rfl,
      decode_constant_of_format_rc (.rmmovq rA rB _) rest rfl rfl,
      decode_constant_of_format_rc (.mrmovq rA rB _) rest rfl rfl,
      decode_constant_of_format_c (.jmp _) rest rfl rfl, decode_constant_of_format_c (.call _) rest rfl rfl⟩⟩

/-- Settles O2: the first nine words are encodings, and the last four decode to an answer that is no instruction. -/
theorem knownWordsDecode : Obligations.KnownWordsDecode := by
  unfold Obligations.KnownWordsDecode
  refine ⟨decode_encode_append .halt [], decode_encode_append .nop [], decode_encode_append (.rrmovq .rdi .rbx) [],
    decode_encode_append (.irmovq .r10 0) [], decode_encode_append (.rmmovq .rax .rbx 8) [],
    decode_encode_append (.addq .r10 .r11) [], decode_encode_append (.jne 0x20) [], decode_encode_append .ret [],
    decode_encode_append (.pushq .rbx) [],
    fun _ _ h => ?_, fun _ _ h => ?_, fun _ _ h => ?_, fun _ _ h => ?_⟩
  all_goals exact Decoded.noConfusion h

end Sys2Proof

/-! Proofs about fetch, the stops it raises, and the run loop. -/

namespace Sys2Proof

theorem Opcode.one_le_length (op : Opcode) : 1 ≤ op.length := by
  cases op <;> decide

theorem Opcode.length_le_ten (op : Opcode) : op.length ≤ 10 := by
  cases op <;> decide

/-- An opcode that has a register field is followed by a register-pair byte (30_encoding.md R80, R85). -/
theorem Opcode.format_of_role_ne_absent {op : Opcode} (h : op.roleA ≠ .absent ∨ op.roleB ≠ .absent) :
    op.format = .r ∨ op.format = .rc := by
  cases op <;> revert h <;> decide

theorem FieldRole.legal_eq_false_iff {role : FieldRole} {n : Nibble} :
    role.legal n = false ↔ (role = .register ∧ n = 0xF) ∨ (role = .sentinel ∧ n ≠ 0xF) := by
  cases role <;> revert n <;> decide

namespace Machine

/-! ### What fetch answers, by the branch it takes (30_encoding.md R90) -/

theorem State.inBounds_mono {s : State} {a : Word} {k n : Nat} (hkn : k ≤ n) (h : s.inBounds a n = true) :
    s.inBounds a k = true := by
  rw [State.inBounds_iff] at h ⊢
  omega

/-- An instruction's own bytes are its opcode byte and those after it. -/
theorem Memory.readBytes_opcode_length (m : Memory) (a : Nat) (op : Opcode) :
    m.readBytes a op.length = m.readByte a :: m.readBytes (a + 1) (op.length - 1) := by
  obtain ⟨k, hk⟩ : ∃ k, op.length = k + 1 := Nat.exists_eq_add_of_le' op.one_le_length
  rw [hk, Memory.readBytes, Nat.add_sub_cancel]

section FetchBranches

variable {s : State} {op : Opcode}

theorem State.fetch_of_pc_outside (h : s.inBounds s.pc 1 = false) : s.fetch = .stop .adr := by
  unfold State.fetch
  rw [h]
  rfl

theorem State.fetch_of_invalid_opcode (h : s.inBounds s.pc 1 = true)
    (hop : Opcode.ofByte? (s.mem.readByte s.pc.toNat) = none) : s.fetch = .stop .ins := by
  unfold State.fetch
  rw [h, hop]
  rfl

theorem State.fetch_of_truncated (h : s.inBounds s.pc 1 = true) (hop : s.mem.readByte s.pc.toNat = op.toByte)
    (hlen : s.inBounds s.pc op.length = false) : s.fetch = .stop .adr := by
  unfold State.fetch
  rw [h, hop, Opcode.ofByte?_toByte]
  simp only [hlen, Bool.false_eq_true, if_false, if_true]

theorem State.fetch_of_fits (hop : s.mem.readByte s.pc.toNat = op.toByte)
    (hlen : s.inBounds s.pc op.length = true) :
    s.fetch = fetchDecoded (s.mem.readBytes s.pc.toNat op.length) := by
  have h1 : s.inBounds s.pc 1 = true := State.inBounds_mono op.one_le_length hlen
  unfold State.fetch
  rw [h1, hop, Opcode.ofByte?_toByte]
  simp only [hlen, if_true]

/-- Bytes at pc, all in bounds, that begin with the encoding of an instruction are fetched as that instruction: fetch
needs no byte after it. -/
theorem State.fetch_of_decode {n : Nat} {i : Instr} {rest : List Byte} (hb : s.inBounds s.pc n = true)
    (hd : decode (s.mem.readBytes s.pc.toNat n) = .instr i rest) : s.fetch = .instr i := by
  have hbytes := eq_encode_append_of_decode hd
  have hlen : i.length ≤ n := by
    have hl := congrArg List.length hbytes
    rw [Memory.length_readBytes, List.length_append, encode_length] at hl
    omega
  have hcode : s.mem.readBytes s.pc.toNat i.length = encode i := by
    obtain ⟨r, hr⟩ := s.mem.readBytes_prefix s.pc.toNat hlen
    exact (List.append_inj (hr.symm.trans hbytes) (by rw [Memory.length_readBytes, encode_length])).1
  have hop : s.mem.readByte s.pc.toNat = i.toFields.op.toByte := by
    obtain ⟨bs, hbs⟩ := encode_head i
    rw [hbs, Instr.length, Memory.readBytes_opcode_length] at hcode
    exact (List.cons.inj hcode).1
  calc s.fetch = fetchDecoded (s.mem.readBytes s.pc.toNat i.length) :=
        State.fetch_of_fits hop (State.inBounds_mono hlen hb)
    _ = .instr i := by rw [hcode, fetchDecoded, decode_encode]

end FetchBranches

/-- Settles O1: what the bytes decode to is what fetch finds. -/
theorem stepRunsDecodedInstruction : Obligations.StepRunsDecodedInstruction := by
  unfold Obligations.StepRunsDecodedInstruction
  exact fun s n i rest hs hb hd => ⟨i.wellFormed, step_of_fetch_instr hs (State.fetch_of_decode hb hd)⟩

/-- Settles O9: every check and every byte fetch makes use of is one of those the two states share. -/
theorem fetchDependsOnlyOnCode : Obligations.FetchDependsOnlyOnCode := by
  unfold Obligations.FetchDependsOnlyOnCode
  intro s t hpc hmax hbytes
  have hbounds : ∀ n, t.inBounds s.pc n = s.inBounds s.pc n := fun n => by simp only [State.inBounds, hmax]
  have hop : t.mem.readByte s.pc.toNat = s.mem.readByte s.pc.toNat := hbytes 0 (by decide)
  have hcode : ∀ op : Opcode, t.mem.readBytes s.pc.toNat op.length = s.mem.readBytes s.pc.toNat op.length :=
    fun op => Memory.readBytes_congr fun k hk => hbytes k (hk.trans_le op.length_le_ten)
  simp only [State.fetch, hpc, hbounds, hop, hcode]

/-! ### Stops at the fetch (60_exceptions.md sections 1, 3, 4) -/

/-- Settles O10: fetch rejects the opcode byte before it looks at another. -/
theorem invalidOpcodeStops : Obligations.InvalidOpcodeStops := by
  unfold Obligations.InvalidOpcodeStops
  intro s hs h0 hmax hbyte
  have hb : s.inBounds s.pc 1 = true := State.inBounds_iff.mpr ⟨h0, by omega⟩
  exact step_of_fetch_stop hs (State.fetch_of_invalid_opcode hb (Opcode.ofByte?_eq_none_iff_notMem.mpr hbyte))

/-- Settles O11: fetch finds the opcode byte out of bounds. -/
theorem pcOutOfMemoryStops : Obligations.PcOutOfMemoryStops := by
  unfold Obligations.PcOutOfMemoryStops
  intro s hs hout
  have hb : s.inBounds s.pc 1 = false := State.inBounds_eq_false_iff.mpr (by omega)
  exact step_of_fetch_stop hs (State.fetch_of_pc_outside hb)

/-- Settles O12: fetch judges the length before it takes the register fields. -/
theorem truncatedInstructionStops : Obligations.TruncatedInstructionStops := by
  unfold Obligations.TruncatedInstructionStops
  intro s op hs h0 hmax hop hend
  have hb : s.inBounds s.pc 1 = true := State.inBounds_iff.mpr ⟨h0, by omega⟩
  have hlen : s.inBounds s.pc op.length = false := State.inBounds_eq_false_iff.mpr (.inr hend)
  exact step_of_fetch_stop hs (State.fetch_of_truncated hb hop hlen)

/-- The register fields of an opcode that has some are the nibbles of the byte after it. -/
theorem takeFields_readBytes {op : Opcode} (hop : op.format = .r ∨ op.format = .rc) (m : Memory) (a : Nat) :
    ∃ v, takeFields op (m.readBytes a (op.length - 1)) =
      some ({ op, rA := pairHigh (m.readByte a), rB := pairLow (m.readByte a), valC := v }, []) := by
  rcases hop with h | h
  case inl => exact ⟨0, by simp only [Opcode.length, h, Format.length, Memory.readBytes, takeFields]⟩
  case inr =>
    refine ⟨constWord (m.readByte (a + 1)) (m.readByte (a + 2)) (m.readByte (a + 3)) (m.readByte (a + 4))
      (m.readByte (a + 5)) (m.readByte (a + 6)) (m.readByte (a + 7)) (m.readByte (a + 8)), ?_⟩
    simp only [Opcode.length, h, Format.length, Memory.readBytes, takeFields]

/-- The four illegal fields are all there is that fails the check of R89. -/
theorem wellFormed_eq_false_iff {f : Fields} : f.wellFormed = false ↔
    (f.op.roleA = .register ∧ f.rA = 0xF) ∨ (f.op.roleA = .sentinel ∧ f.rA ≠ 0xF) ∨
      (f.op.roleB = .register ∧ f.rB = 0xF) ∨ (f.op.roleB = .sentinel ∧ f.rB ≠ 0xF) := by
  rw [Fields.wellFormed, Bool.and_eq_false_iff, FieldRole.legal_eq_false_iff, FieldRole.legal_eq_false_iff, or_assoc]

/-- Settles O13: the fields fetch takes fail the check of R89, so that they stand for no instruction. -/
theorem illegalRegisterFieldStops : Obligations.IllegalRegisterFieldStops := by
  unfold Obligations.IllegalRegisterFieldStops
  intro s op hs h0 hmax hop p hillegal
  have hb : s.inBounds s.pc op.length = true := State.inBounds_iff.mpr ⟨h0, hmax⟩
  have hrole : op.roleA ≠ .absent ∨ op.roleB ≠ .absent := by
    rcases hillegal with ⟨hr, -⟩ | ⟨hr, -⟩ | ⟨hr, -⟩ | ⟨hr, -⟩ <;> simp [hr]
  obtain ⟨v, hf⟩ := takeFields_readBytes (Opcode.format_of_role_ne_absent hrole) s.mem (s.pc.toNat + 1)
  have hnone : Fields.toInstr? { op, rA := pairHigh p, rB := pairLow p, valC := v } = none := by
    rw [← Option.not_isSome_iff_eq_none, isSome_toInstr?, Bool.not_eq_true]
    exact wellFormed_eq_false_iff.mpr hillegal
  refine step_of_fetch_stop (c := .ins) hs ?_
  rw [State.fetch_of_fits hop hb, Memory.readBytes_opcode_length, hop]
  simp only [fetchDecoded, decode, Opcode.ofByte?_toByte, hf, hnone, p]

/-! ### Precise stops (60_exceptions.md R177; 40_halt_nop.md R110) -/

/-- Settles O14: a stop is raised by fetch or by the instruction, and `halt` is the one instruction that ends in HLT. -/
theorem stopsArePrecise : Obligations.StopsArePrecise := by
  unfold Obligations.StopsArePrecise
  intro s t h
  obtain ⟨hs, ⟨i, hfetch, hexec⟩ | ⟨c, -, rfl⟩⟩ := step_cases h
  case inl =>
    obtain haok | rfl | ⟨rfl, rfl⟩ := exec_status hexec hs
    · simp [haok]
    · exact ⟨fun _ => rfl, nofun⟩
    · obtain ⟨-, hbyte, -⟩ := State.fetch_eq_instr hfetch
      exact ⟨nofun, fun _ => ⟨hbyte, rfl⟩⟩
  case inr => exact ⟨fun _ => rfl, fun hc => by cases c <;> cases hc⟩

/-! ### The run loop (60_exceptions.md R187) -/

theorem step_of_stopped {s : State} (hs : s.stat ≠ .aok) : step s = .fault (.stopped s.stat) := by
  unfold step
  split
  · contradiction
  · rfl

theorem callerRun_of_stopped {s : State} (hs : s.stat ≠ .aok) (fuel : Nat) : callerRun fuel s = .next s := by
  cases fuel with
  | zero => rfl
  | succ fuel =>
    unfold callerRun
    split
    · contradiction
    · rfl

theorem callerRun_succ {s t : State} (h : step s = .next t) (fuel : Nat) :
    callerRun (fuel + 1) s = callerRun fuel t := by
  obtain ⟨hs, -⟩ := step_cases h
  rw [callerRun, hs, h]

theorem step_answers_next {s : State} (hs : s.stat = .aok) : ∃ t, step s = .next t := by
  cases hf : s.fetch with
  | instr i =>
    rw [step_of_fetch_instr hs hf]
    exact exec_answers_next i s
  | stop c => exact ⟨_, step_of_fetch_stop hs hf⟩

/-- What a run with fuel left does: it is over, or it makes one step and goes on. -/
theorem callerRun_succ_cases (fuel : Nat) (s : State) :
    (s.stat ≠ .aok ∧ callerRun (fuel + 1) s = .next s) ∨
      ∃ t, step s = .next t ∧ callerRun (fuel + 1) s = callerRun fuel t := by
  by_cases hs : s.stat = .aok
  case pos =>
    obtain ⟨t, ht⟩ := step_answers_next hs
    exact .inr ⟨t, ht, callerRun_succ ht fuel⟩
  case neg => exact .inl ⟨hs, callerRun_of_stopped hs _⟩

/-- What every step keeps, a run keeps. -/
theorem callerRun_induction {P : State → Prop} (hstep : ∀ s t, P s → step s = .next t → P t) {fuel : Nat} {s t : State}
    (hs : P s) (h : callerRun fuel s = .next t) : P t := by
  induction fuel generalizing s with
  | zero => cases h; exact hs
  | succ fuel ih =>
    obtain ⟨-, hrun⟩ | ⟨u, hu, hrun⟩ := callerRun_succ_cases fuel s <;> rw [hrun] at h
    · cases h; exact hs
    · exact ih (hstep s u hs hu) h

/-- Settles O15: a step and a run both begin by looking at the status. -/
theorem stoppedEngineTakesNoStep : Obligations.StoppedEngineTakesNoStep := by
  unfold Obligations.StoppedEngineTakesNoStep
  exact fun s hs => ⟨step_of_stopped hs, callerRun_of_stopped hs⟩

/-- Settles O16: fetch answers an instruction or a stop, and each instruction answers a next state. -/
theorem runningEngineAlwaysSteps : Obligations.RunningEngineAlwaysSteps := by
  unfold Obligations.RunningEngineAlwaysSteps
  exact fun s hs => step_answers_next hs

/-- Settles O17, by induction on the fuel. -/
theorem runsReachAState : Obligations.RunsReachAState := by
  unfold Obligations.RunsReachAState
  intro fuel
  induction fuel with
  | zero => exact fun s => ⟨s, rfl, fun hs more => callerRun_of_stopped hs _⟩
  | succ fuel ih =>
    intro s
    obtain ⟨hs, hrun⟩ | ⟨u, hu, hrun⟩ := callerRun_succ_cases fuel s
    · exact ⟨s, hrun, fun _ more => callerRun_of_stopped hs _⟩
    · obtain ⟨t, ht, hmore⟩ := ih u
      refine ⟨t, hrun.trans ht, fun hs more => ?_⟩
      rw [Nat.add_right_comm, callerRun_succ hu]
      exact hmore hs more

end Machine

end Sys2Proof

/-! What the instructions do to the state, said once for each operation they share: the moves and jumps under a
condition, the ALU, and the six instructions that can stop with ADR. -/

namespace Sys2Proof.Machine

/-! ### Frames (10_state.md R25) -/

/-- A register write keeps the registers that are not listed, if the one it writes is. -/
theorem State.sameRegsBut_writeReg (s : State) {r : Reg} (v : Word) {changed : List Reg} (hr : r ∈ changed) :
    s.sameRegsBut (s.writeReg r v) changed :=
  fun _ hq => s.readReg_writeReg_of_ne v fun e => hq (e ▸ hr)

theorem State.sameRegsBut_trans {s t u : State} {changed : List Reg} (hst : s.sameRegsBut t changed)
    (htu : t.sameRegsBut u changed) : s.sameRegsBut u changed :=
  fun r hr => (htu r hr).trans (hst r hr)

/-- A stop keeps every register. -/
theorem State.sameRegsBut_raise (s : State) (c : Stop) (changed : List Reg) : s.sameRegsBut (s.raise c) changed :=
  fun r _ => s.readReg_raise c r

/-- A register write and an update of pc touch nothing else. -/
theorem State.onlyRegs_writeReg_setPc (s : State) (r : Reg) (v target : Word) :
    s.onlyRegs ((s.writeReg r v).setPc target) [r] :=
  ⟨s.sameRegsBut_writeReg v List.mem_cons_self, rfl, rfl, rfl, fun _ => rfl⟩

/-- A word write keeps the bytes outside the word. -/
theorem State.sameMemoryOutside_setMem_writeWord (s : State) (a : Nat) (v : Word) :
    s.sameMemoryOutside (s.setMem (s.mem.writeWord a v)) a 8 :=
  ⟨rfl, fun _ hx => s.mem.readByte_writeWord_outside a v hx⟩

/-! ### Moves and jumps under a condition (41_moves.md R116 to R122; 44_jumps.md R152) -/

section Conditional

variable (s : State) {c : Cond}

theorem State.condMove_of_holds (h : c.holds s.flags = true) (rA rB : Reg) :
    s.condMove c rA rB = (s.writeReg rB (s.readReg rA)).setPc (s.pc + 2) := by
  rw [State.condMove, if_pos h]
  rfl

theorem State.condMove_of_not_holds (h : ¬c.holds s.flags = true) (rA rB : Reg) :
    s.condMove c rA rB = s.setPc (s.pc + 2) := by
  rw [State.condMove, if_neg h]
  rfl

theorem State.onlyRegs_condMove (c : Cond) (rA rB : Reg) : s.onlyRegs (s.condMove c rA rB) [rB] := by
  by_cases h : c.holds s.flags = true
  case pos => rw [s.condMove_of_holds h]; exact s.onlyRegs_writeReg_setPc rB _ _
  case neg => rw [s.condMove_of_not_holds h]; exact s.onlyRegs_setPc _ _

theorem State.condJump_of_holds (h : c.holds s.flags = true) (dest : Word) : s.condJump c dest = s.setPc dest := by
  rw [State.condJump, if_pos h]

theorem State.condJump_of_not_holds (h : ¬c.holds s.flags = true) (dest : Word) :
    s.condJump c dest = s.setPc (s.pc + 9) := by
  rw [State.condJump, if_neg h]
  rfl

end Conditional

/-! ### The ALU (43_alu.md R139) -/

theorem State.sameRegsBut_aluResult (s : State) (rB : Reg) (r : Word) (overflow : Bool) :
    s.sameRegsBut (s.aluResult rB r overflow) [rB] :=
  s.sameRegsBut_writeReg r List.mem_cons_self

theorem State.readReg_aluResult (s : State) (rB : Reg) (r : Word) (overflow : Bool) :
    (s.aluResult rB r overflow).readReg rB = r :=
  s.readReg_writeReg_self rB r

/-! ### The state after a push (46_stack.md R165; 45_call_ret.md R160) -/

/-- `s` with `v` pushed and pc moved to `target`: what `call` and `pushq` leave (`exec_call`, `exec_pushq`). -/
def State.pushed (s : State) (v target : Word) : State :=
  ((s.setMem (s.mem.writeWord s.pushAddress.toNat v)).writeReg spId s.pushAddress).setPc target

section Pushed

variable (s : State) (v target : Word)

theorem State.pushed_pc : (s.pushed v target).pc = target := rfl

theorem State.pushed_memMax : (s.pushed v target).memMax = s.memMax := rfl

theorem State.pushed_mem : (s.pushed v target).mem = s.mem.writeWord s.pushAddress.toNat v := rfl

theorem State.sp_pushed : (s.pushed v target).sp = s.pushAddress :=
  State.readReg_writeReg_self _ spId s.pushAddress

/-- A push changes SP and the word at the push address. -/
theorem State.onlyRegsAndWord_pushed : s.onlyRegsAndWord (s.pushed v target) [spId] s.pushAddress.toNat :=
  ⟨(s.setMem (s.mem.writeWord s.pushAddress.toNat v)).sameRegsBut_writeReg s.pushAddress List.mem_cons_self, rfl, rfl,
    s.sameMemoryOutside_setMem_writeWord _ v⟩

end Pushed

/-! ### The instructions that load or store: what they do, and when they stop with ADR instead -/

section LoadsAndStores

variable (s : State)

/-- 42_memory_moves.md R130. -/
theorem exec_rmmovq (rA rB : Reg) (disp : Word) :
    exec (.rmmovq rA rB disp) s =
      if (s.readReg rB + disp).toInt < s.sp.toInt ∧ s.inBounds (s.readReg rB + disp) 8 = true then
        .next ((s.setMem (s.mem.writeWord (s.readReg rB + disp).toNat (s.readReg rA))).setPc (s.pc + 10))
      else .next (s.raise .adr) := by
  simp only [exec, execRmmovq, State.effectiveAddress]
  cases hst : s.store (s.readReg rB + disp) (s.readReg rA) with
  | none =>
    have hfail := State.store_eq_none_iff.mp hst
    rw [if_neg]
    rintro ⟨hguard, hb⟩
    exact hfail.elim (by omega) fun hb' => by simp [hb] at hb'
  | some t =>
    obtain ⟨hguard, hb, rfl⟩ := State.store_eq_some_iff.mp hst
    exact (if_pos ⟨hguard, hb⟩).symm

/-- 42_memory_moves.md R131. -/
theorem exec_mrmovq (rA rB : Reg) (disp : Word) :
    exec (.mrmovq rA rB disp) s =
      if s.inBounds (s.readReg rB + disp) 8 = true then
        .next ((s.writeReg rA (s.mem.readWord (s.readReg rB + disp).toNat)).setPc (s.pc + 10))
      else .next (s.raise .adr) := by
  simp only [exec, execMrmovq, State.effectiveAddress]
  cases hl : s.memRead8 (s.readReg rB + disp) with
  | none => rw [State.memRead8_eq_none_iff.mp hl]; rfl
  | some v =>
    obtain ⟨hb, rfl⟩ := State.memRead8_eq_some_iff.mp hl
    exact (if_pos hb).symm

/-- 45_call_ret.md R160. -/
theorem exec_call (dest : Word) :
    exec (.call dest) s =
      if 8 ≤ s.sp.toInt ∧ s.sp.toInt ≤ s.memMax then
        .next (s.pushed (s.pc + 9) dest)
      else .next (s.raise .adr) := by
  simp only [exec, execCall]
  cases hp : s.push (s.valP 9) with
  | none => rw [if_neg]; have := State.push_eq_none_iff.mp hp; omega
  | some t =>
    obtain ⟨hroom, rfl⟩ := State.push_eq_some_iff.mp hp
    exact (if_pos hroom).symm

/-- 46_stack.md R165. -/
theorem exec_pushq (rA : Reg) :
    exec (.pushq rA) s =
      if 8 ≤ s.sp.toInt ∧ s.sp.toInt ≤ s.memMax then
        .next (s.pushed (s.readReg rA) (s.pc + 2))
      else .next (s.raise .adr) := by
  simp only [exec, execPushq]
  cases hp : s.push (s.readReg rA) with
  | none => rw [if_neg]; have := State.push_eq_none_iff.mp hp; omega
  | some t =>
    obtain ⟨hroom, rfl⟩ := State.push_eq_some_iff.mp hp
    exact (if_pos hroom).symm

/-- 45_call_ret.md R161. -/
theorem exec_ret :
    exec .ret s =
      if s.inBounds s.sp 8 = true then .next ((s.writeReg spId (s.sp + 8)).setPc (s.mem.readWord s.sp.toNat))
      else .next (s.raise .adr) := by
  simp only [exec, execRet]
  cases hp : s.pop with
  | none => rw [State.pop_eq_none_iff.mp hp]; rfl
  | some p =>
    obtain ⟨v, t⟩ := p
    obtain ⟨hb, rfl, rfl⟩ := State.pop_eq_some_iff.mp hp
    exact (if_pos hb).symm

/-- 46_stack.md R166. -/
theorem exec_popq (rA : Reg) :
    exec (.popq rA) s =
      if s.inBounds s.sp 8 = true then
        .next (((s.writeReg spId (s.sp + 8)).writeReg rA (s.mem.readWord s.sp.toNat)).setPc (s.pc + 2))
      else .next (s.raise .adr) := by
  simp only [exec, execPopq]
  cases hp : s.pop with
  | none => rw [State.pop_eq_none_iff.mp hp]; rfl
  | some p =>
    obtain ⟨v, t⟩ := p
    obtain ⟨hb, rfl, rfl⟩ := State.pop_eq_some_iff.mp hp
    exact (if_pos hb).symm

end LoadsAndStores

end Sys2Proof.Machine

/-! Proofs about the whole machine: the invariant, reset and the caller's operations, and what no step changes. -/

namespace Sys2Proof.Machine

/-! ### The invariant -/

theorem step_inv {s t : State} (hs : s.Inv) (h : step s = .next t) : t.Inv := by
  obtain ⟨-, ⟨i, -, hexec⟩ | ⟨c, -, rfl⟩⟩ := step_cases h
  case inl =>
    obtain ⟨hmax, hmem | ⟨-, a, v, -, hb, hmem⟩⟩ := exec_memory hexec
    · exact (State.inv_congr hmem hmax).mpr hs
    · exact (State.inv_congr (s := s.setMem (s.mem.writeWord a.toNat v)) hmem hmax).mpr
        (State.inv_setMem_writeWord hs hb)
  case inr => exact (State.inv_congr rfl rfl).mpr hs

/-- Settles O18: a step leaves the memory alone or writes a word in bounds. -/
theorem stepKeepsInvariant : Obligations.StepKeepsInvariant := by
  unfold Obligations.StepKeepsInvariant
  exact fun _ _ hs h => step_inv hs h

/-- Settles O19: the parameters R4 allows are those whose reset meets the invariant. -/
theorem resetMeetsInvariant : Obligations.ResetMeetsInvariant := by
  unfold Obligations.ResetMeetsInvariant
  have hreset : ∀ c : Config, validConfig c → (State.resetWith c).Inv := fun _ hc => hc
  exact ⟨hreset defaultConfig (by decide), hreset⟩

theorem callerLoad_eq_next_iff {s t : State} {a : Nat} {b : Byte} :
    callerLoad a b s = .next t ↔ a < s.memMax ∧ t = s.setMem (s.mem.writeByte a b) := by
  unfold callerLoad
  by_cases ha : a < s.memMax
  · rw [if_pos ha, Host.Outcome.next.injEq, eq_comm, and_iff_right ha]
  · rw [if_neg ha]
    exact iff_of_false nofun fun h => ha h.1

/-- Loading a byte inside the memory keeps the invariant. -/
theorem State.inv_setMem_writeByte {s : State} {a : Nat} {b : Byte} (hs : s.Inv) (ha : a < s.memMax) :
    (s.setMem (s.mem.writeByte a b)).Inv := by
  obtain ⟨hmax, hwf, hwithin⟩ := hs
  refine ⟨hmax, Memory.writeByte_wf a b hwf, fun c hc => ?_⟩
  obtain hca | hold := Memory.mem_writeByte hc
  · exact hca ▸ ha
  · exact hwithin c hold

/-- Settles O20: a load writes inside the memory, reset keeps the memory, and a run makes steps. -/
theorem callerKeepsInvariant : Obligations.CallerKeepsInvariant := by
  unfold Obligations.CallerKeepsInvariant
  refine ⟨fun s a b t hs h => ?load, fun s entry regs flags hs => ?reset, fun fuel s t hs h => ?run⟩
  case load =>
    obtain ⟨ha, rfl⟩ := callerLoad_eq_next_iff.mp h
    exact State.inv_setMem_writeByte hs ha
  case reset => exact (State.inv_congr rfl rfl).mpr hs
  case run => exact callerRun_induction (fun _ _ => step_inv) hs h

/-- An address does not wrap while the invariant and a bounds check keep it below 2^63. -/
theorem State.toInt_add_of_inBounds {s : State} {a : Word} {n : Nat} (hs : s.Inv) (hb : s.inBounds a n = true) :
    (a + BitVec.ofNat 64 n).toInt = a.toInt + n := by
  obtain ⟨⟨-, hmax⟩, -, -⟩ := hs
  obtain ⟨h0, hend⟩ := State.inBounds_iff.mp hb
  have hn : (BitVec.ofNat 64 n).toInt = n := by
    rw [BitVec.toInt_ofNat', Int.bmod_eq_of_le] <;> omega
  rw [BitVec.toInt_add, hn, Int.bmod_eq_of_le] <;> omega

/-- Settles O28: `valP` is an address of `State.toInt_add_of_inBounds`, and the bounds check bounds it. -/
theorem sequentialPcNeverWraps : Obligations.SequentialPcNeverWraps := by
  unfold Obligations.SequentialPcNeverWraps
  intro s n hs hb
  have hsum : (s.valP n).toInt = s.pc.toInt + n := State.toInt_add_of_inBounds hs hb
  exact ⟨hsum, hsum ▸ (State.inBounds_iff.mp hb).2⟩

/-! ### Reset and load (70_reset_and_hazards.md R190, R191) -/

/-- SP after reset is MEM_MAX, whatever its entry among the given registers. -/
theorem State.readReg_resetWith (c : Config) (r : Reg) :
    (State.resetWith c).readReg r = if r = spId then BitVec.ofNat 64 c.memMax else c.regs[r.index] :=
  State.readReg_writeReg { State.resetWith c with regs := c.regs } spId r (BitVec.ofNat 64 c.memMax)

/-- Settles O21: the caller's reset is a reset to the parameters with the memory kept. -/
theorem resetLeavesSpecValues : Obligations.ResetLeavesSpecValues := by
  unfold Obligations.ResetLeavesSpecValues
  have hsp : ∀ c : Config, (State.resetWith c).sp = BitVec.ofNat 64 c.memMax :=
    fun c => (State.readReg_resetWith c spId).trans (if_pos rfl)
  have hregs : ∀ (c : Config) (r : Reg), r ≠ spId → (State.resetWith c).readReg r = c.regs[r.index] :=
    fun c r hr => (State.readReg_resetWith c r).trans (if_neg hr)
  refine ⟨fun c => ⟨rfl, rfl, hsp c, rfl, rfl, rfl, hregs c⟩, fun s entry regs flags => ?_, rfl⟩
  exact ⟨rfl, rfl, hsp _, rfl, ⟨rfl, fun _ => rfl⟩, hregs _⟩

/-- Settles O22: a byte reads what was written to it, and a write leaves the others alone. -/
theorem loadWritesInsideMemoryOnly : Obligations.LoadWritesInsideMemoryOnly := by
  unfold Obligations.LoadWritesInsideMemoryOnly
  refine fun s a b => ⟨fun ha => ?inside, fun ha => ?outside⟩
  case inside =>
    refine ⟨s.setMem (s.mem.writeByte a b), callerLoad_eq_next_iff.mpr ⟨ha, rfl⟩, ?_, fun x hx => ?_,
      rfl, rfl, rfl, rfl, rfl⟩
    · rw [State.setMem_mem, Memory.readByte_writeByte, if_pos rfl]
    · rw [State.setMem_mem, Memory.readByte_writeByte, if_neg hx]
  case outside => rw [callerLoad, if_neg (by omega)]

/-! ### What no step changes -/

/-- A step that changes something other than the status ran the instruction at pc. -/
theorem exec_of_step_of_ne {α : Type} {s t : State} {view : State → α} (h : step s = .next t)
    (hview : ∀ c, view (s.raise c) = view s) (hne : view t ≠ view s) :
    ∃ i, exec i s = .next t ∧ s.mem.readByte s.pc.toNat = i.toFields.op.toByte := by
  obtain ⟨-, ⟨i, hfetch, hexec⟩ | ⟨c, -, rfl⟩⟩ := step_cases h
  case inl =>
    obtain ⟨-, hbyte, -⟩ := State.fetch_eq_instr hfetch
    exact ⟨i, hexec, hbyte⟩
  case inr => exact absurd (hview c) hne

/-- Settles O23: the opcode byte at pc is that of one of the four instructions that write flags. -/
theorem flagsWrittenOnlyByAlu : Obligations.FlagsWrittenOnlyByAlu := by
  unfold Obligations.FlagsWrittenOnlyByAlu
  intro s t h hne
  obtain ⟨i, hexec, hbyte⟩ := exec_of_step_of_ne h s.raise_flags hne
  rw [hbyte]
  exact List.mem_map_of_mem (f := Opcode.toByte) (exec_flags hexec hne)

/-- Settles O24: the opcode byte at pc is that of one of the three instructions that store. -/
theorem memoryWrittenOnlyByStores : Obligations.MemoryWrittenOnlyByStores := by
  unfold Obligations.MemoryWrittenOnlyByStores
  intro s t a h hne
  obtain ⟨i, hexec, hbyte⟩ := exec_of_step_of_ne (view := fun u => u.mem.readByte a) h (fun _ => rfl) hne
  obtain ⟨-, hmem | ⟨hop, -⟩⟩ := exec_memory hexec
  · exact absurd (congrArg (·.readByte a) hmem) hne
  · rw [hbyte]
    exact List.mem_map_of_mem (f := Opcode.toByte) hop

/-- Settles O25: the word a step writes begins below SP and lies in bounds. -/
theorem storeGuardProtectsStack : Obligations.StoreGuardProtectsStack := by
  unfold Obligations.StoreGuardProtectsStack
  intro s t h
  obtain ⟨-, ⟨i, -, hexec⟩ | ⟨c, -, rfl⟩⟩ := step_cases h
  case inl =>
    obtain ⟨hmax, hmem⟩ := exec_memory hexec
    refine ⟨hmax, fun x hx => ?_⟩
    obtain hmem | ⟨-, a, v, hguard, hb, hmem⟩ := hmem <;> rw [hmem]
    obtain ⟨h0, hend⟩ := State.inBounds_iff.mp hb
    have hnat := toNat_of_toInt_nonneg h0
    exact s.mem.readByte_writeWord_outside a.toNat v (.inr (by omega))
  case inr => exact ⟨rfl, fun _ _ => rfl⟩

/-- The frame of an instruction on the registers: each one it writes stands in the writes column. -/
theorem exec_sameRegsBut {i : Instr} {s t : State} (h : exec i s = .next t) : s.sameRegsBut t (writtenRegs i) := by
  cases i
  case halt | nop | jmp | jle | jl | je | jne | jge | jg => cases h; exact fun _ _ => rfl
  case rrmovq | cmovle | cmovl | cmove | cmovne | cmovge | cmovg =>
    cases h
    exact (s.onlyRegs_condMove _ _ _).1
  case irmovq rB imm => cases h; exact s.sameRegsBut_writeReg imm List.mem_cons_self
  case addq | subq | andq | xorq => cases h; exact s.sameRegsBut_aluResult _ _ _
  case rmmovq =>
    rw [exec_rmmovq] at h
    split at h <;> cases h
    · exact fun _ _ => rfl
    · exact s.sameRegsBut_raise _ _
  case mrmovq =>
    rw [exec_mrmovq] at h
    split at h <;> cases h
    · exact s.sameRegsBut_writeReg _ List.mem_cons_self
    · exact s.sameRegsBut_raise _ _
  case call | pushq =>
    simp only [exec_call, exec_pushq] at h
    split at h <;> cases h
    · exact (s.onlyRegsAndWord_pushed _ _).1
    · exact s.sameRegsBut_raise _ _
  case ret =>
    rw [exec_ret] at h
    split at h <;> cases h
    · exact s.sameRegsBut_writeReg _ List.mem_cons_self
    · exact s.sameRegsBut_raise _ _
  case popq rA =>
    rw [exec_popq] at h
    split at h <;> cases h
    · exact State.sameRegsBut_trans (s.sameRegsBut_writeReg (s.sp + 8) List.mem_cons_self)
        (State.sameRegsBut_writeReg _ _ (List.mem_cons_of_mem _ List.mem_cons_self))
    · exact s.sameRegsBut_raise _ _

/-- Settles O26: the registers' frame, said once for every instruction. -/
theorem onlyListedRegistersAreWritten : Obligations.OnlyListedRegistersAreWritten := by
  unfold Obligations.OnlyListedRegistersAreWritten
  exact fun _ _ _ h => exec_sameRegsBut h

/-! ### OF is never read (10_state.md R31) -/

theorem State.condMove_withOf (s : State) (o : Bool) (c : Cond) (rA rB : Reg) :
    (s.withOf o).condMove c rA rB = (s.condMove c rA rB).withOf o := by
  have hc : c.holds (s.withOf o).flags = c.holds s.flags := Cond.holds_setOf s.flags c o
  by_cases h : c.holds s.flags = true
  · rw [s.condMove_of_holds h, State.condMove_of_holds _ (hc.trans h)]; rfl
  · rw [s.condMove_of_not_holds h, State.condMove_of_not_holds _ (hc ▸ h)]; rfl

theorem State.condJump_withOf (s : State) (o : Bool) (c : Cond) (dest : Word) :
    (s.withOf o).condJump c dest = (s.condJump c dest).withOf o := by
  have hc : c.holds (s.withOf o).flags = c.holds s.flags := Cond.holds_setOf s.flags c o
  by_cases h : c.holds s.flags = true
  · rw [s.condJump_of_holds h, State.condJump_of_holds _ (hc.trans h)]; rfl
  · rw [s.condJump_of_not_holds h, State.condJump_of_not_holds _ (hc ▸ h)]; rfl

/-- An instruction run with another OF ends in the same state but for OF: the ALU instructions assign it from their
operands, and the others carry it along. -/
theorem exec_withOf {i : Instr} {s t : State} (o : Bool) (h : exec i s = .next t) :
    ∃ o', exec i (s.withOf o) = .next (t.withOf o') := by
  cases i
  case halt | nop | irmovq => cases h; exact ⟨o, rfl⟩
  case rrmovq | cmovle | cmovl | cmove | cmovne | cmovge | cmovg =>
    cases h
    exact ⟨o, congrArg Host.Outcome.next (s.condMove_withOf o _ _ _)⟩
  case jmp | jle | jl | je | jne | jge | jg =>
    cases h
    exact ⟨o, congrArg Host.Outcome.next (s.condJump_withOf o _ _)⟩
  case addq | subq | andq | xorq => exact ⟨t.flags.of, by cases h; rfl⟩
  case rmmovq | mrmovq | call | ret | pushq | popq =>
    refine ⟨o, ?_⟩
    simp only [exec_rmmovq, exec_mrmovq, exec_call, exec_ret, exec_pushq, exec_popq] at h ⊢
    split at h <;> rename_i hcond <;> cases h
    · exact if_pos hcond
    · exact if_neg hcond

theorem State.fetch_withOf (s : State) (o : Bool) : (s.withOf o).fetch = s.fetch := rfl

theorem step_withOf {s t : State} (o : Bool) (h : step s = .next t) :
    ∃ o', step (s.withOf o) = .next (t.withOf o') := by
  obtain ⟨hs, ⟨i, hfetch, hexec⟩ | ⟨c, hfetch, rfl⟩⟩ := step_cases h
  case inl =>
    obtain ⟨o', ho'⟩ := exec_withOf o hexec
    exact ⟨o', (step_of_fetch_instr (s := s.withOf o) hs ((s.fetch_withOf o).trans hfetch)).trans ho'⟩
  case inr => exact ⟨o, step_of_fetch_stop (s := s.withOf o) hs ((s.fetch_withOf o).trans hfetch)⟩

/-- Settles O27, by induction on the fuel: the states of the two runs differ in OF alone after every step. -/
theorem overflowFlagIsNeverRead : Obligations.OverflowFlagIsNeverRead := by
  unfold Obligations.OverflowFlagIsNeverRead
  intro fuel
  induction fuel with
  | zero => intro s t o h; cases h; exact ⟨o, rfl⟩
  | succ fuel ih =>
    intro s t o h
    obtain ⟨hs, hrun⟩ | ⟨u, hu, hrun⟩ := callerRun_succ_cases fuel s <;> rw [hrun] at h
    · cases h
      exact ⟨o, callerRun_of_stopped (s := s.withOf o) hs _⟩
    · obtain ⟨o₁, hstep⟩ := step_withOf o hu
      obtain ⟨o₂, hrest⟩ := ih u t o₁ h
      exact ⟨o₂, (callerRun_succ hstep fuel).trans hrest⟩

end Sys2Proof.Machine

/-! Proofs about the registers, the moves, the ALU and the jumps. -/

namespace Sys2Proof.Machine

/-- Settles O29: identifiers and registers are inverse to each other. -/
theorem registersAreDistinctCells : Obligations.RegistersAreDistinctCells := by
  unfold Obligations.RegistersAreDistinctCells
  refine ⟨fun s r q v => s.readReg_writeReg r q v, fun r q h => ?distinct, fun n => ⟨?_, fun hn => ?named⟩⟩
  case distinct =>
    have hsome := congrArg Reg.ofNibble? h
    rw [Reg.ofNibble?_toNibble, Reg.ofNibble?_toNibble] at hsome
    exact Option.some.inj hsome
  · rintro ⟨r, rfl⟩
    exact r.toNibble_ne_sentinel
  case named =>
    obtain ⟨r, hr⟩ := Option.ne_none_iff_exists'.mp (mt Reg.ofNibble?_eq_none_iff.mp hn)
    exact ⟨r, Reg.toNibble_of_ofNibble? hr⟩

/-! ### halt and the moves -/

/-- Settles O32: `halt` is an update of pc and one of the status. -/
theorem haltStopsWithSuccess : Obligations.HaltStopsWithSuccess := by
  unfold Obligations.HaltStopsWithSuccess
  exact ⟨encode_of_format_n rfl, fun s =>
    ⟨(s.setPc (s.pc + 1)).setStat .hlt, rfl, rfl, rfl, fun _ _ => rfl, rfl, rfl, fun _ => rfl⟩⟩

/-- Settles O35: `rrmovq` is the move whose condition always holds. -/
theorem rrmovqCopiesRegister : Obligations.RrmovqCopiesRegister := by
  unfold Obligations.RrmovqCopiesRegister
  refine ⟨fun rA rB => encode_of_format_r rfl, fun rA rB s =>
    ⟨(s.writeReg rB (s.readReg rA)).setPc (s.pc + 2), ?_, s.readReg_writeReg_self rB _, rfl,
      s.onlyRegs_writeReg_setPc rB _ _⟩⟩
  exact congrArg Host.Outcome.next (s.condMove_of_holds (Cond.holds_always _) rA rB)

/-- Settles O37: `irmovq` is a register write and an update of pc. -/
theorem irmovqLoadsConstant : Obligations.IrmovqLoadsConstant := by
  unfold Obligations.IrmovqLoadsConstant
  exact fun rB imm s => ⟨(s.writeReg rB imm).setPc (s.pc + 10), rfl, s.readReg_writeReg_self rB imm, rfl,
    s.onlyRegs_writeReg_setPc rB _ _⟩

/-- An instruction that is `State.condMove` is a conditional move as 41_moves.md section 2 describes it. -/
theorem conditionalMove_of_exec {op : Byte} {mk : Reg → Reg → Instr} {c : Cond} {p : Flags → Prop}
    (hencode : ∀ rA rB, encode (mk rA rB) = [op, rA.toNibble ++ rB.toNibble])
    (hexec : ∀ rA rB s, exec (mk rA rB) s = .next (s.condMove c rA rB))
    (hp : ∀ f, c.holds f = true ↔ p f) : Claims.conditionalMove op mk p := by
  refine ⟨hencode, fun rA rB s => ⟨s.condMove c rA rB, hexec rA rB s, fun h => ?taken, fun h => ?not_taken, ?advances,
    s.onlyRegs_condMove c rA rB⟩⟩
  case taken =>
    rw [s.condMove_of_holds ((hp s.flags).mpr h), State.readReg_setPc, State.readReg_writeReg_self]
  case not_taken => rw [s.condMove_of_not_holds (mt (hp s.flags).mp h), State.readReg_setPc]
  case advances => exact State.setPc_pc _ _

/-- Settles O36: the six differ in the condition alone. -/
theorem conditionalMovesCopyWhenTrue : Obligations.ConditionalMovesCopyWhenTrue := by
  unfold Obligations.ConditionalMovesCopyWhenTrue
  exact ⟨conditionalMove_of_exec (fun _ _ => rfl) (fun _ _ _ => rfl) Cond.holds_le_iff,
    conditionalMove_of_exec (fun _ _ => rfl) (fun _ _ _ => rfl) Cond.holds_l_iff,
    conditionalMove_of_exec (fun _ _ => rfl) (fun _ _ _ => rfl) Cond.holds_e_iff,
    conditionalMove_of_exec (fun _ _ => rfl) (fun _ _ _ => rfl) Cond.holds_ne_iff,
    conditionalMove_of_exec (fun _ _ => rfl) (fun _ _ _ => rfl) Cond.holds_ge_iff,
    conditionalMove_of_exec (fun _ _ => rfl) (fun _ _ _ => rfl) Cond.holds_g_iff⟩

/-! ### The ALU (43_alu.md) -/

theorem aluFlags_zf_iff (r : Word) (overflow : Bool) : (aluFlags r overflow).zf = true ↔ r = 0 := beq_iff_eq

theorem aluFlags_sf_iff (r : Word) (overflow : Bool) : (aluFlags r overflow).sf = true ↔ r.toInt < 0 := by
  rw [aluFlags, BitVec.msb_eq_toInt, decide_eq_true_iff]

/-- An instruction that is `State.aluResult` is an ALU instruction as 43_alu.md R139 describes it. -/
theorem alu_of_exec {op : Byte} {mk : Reg → Reg → Instr} {f : Word → Word → Word} {g : Word → Word → Bool}
    {ovf : Word → Word → Prop} (hencode : ∀ rA rB, encode (mk rA rB) = [op, rA.toNibble ++ rB.toNibble])
    (hexec : ∀ rA rB s, exec (mk rA rB) s =
      .next (s.aluResult rB (f (s.readReg rA) (s.readReg rB)) (g (s.readReg rA) (s.readReg rB))))
    (hovf : ∀ a b, g a b = true ↔ ovf a b) : Claims.alu op mk f ovf := by
  refine ⟨hencode, fun rA rB s => ⟨_, hexec rA rB s, ?_⟩⟩
  rw [State.readReg_aluResult]
  exact ⟨rfl, aluFlags_zf_iff _ _, aluFlags_sf_iff _ _, hovf _ _, rfl, s.sameRegsBut_aluResult rB _ _, rfl, rfl,
    fun _ => rfl⟩

theorem ofInt_toInt_add_toInt (b a : Word) : BitVec.ofInt 64 (b.toInt + a.toInt) = b + a :=
  BitVec.eq_of_toInt_eq (by rw [BitVec.toInt_ofInt, BitVec.toInt_add])

theorem ofInt_toInt_sub_toInt (b a : Word) : BitVec.ofInt 64 (b.toInt - a.toInt) = b - a :=
  BitVec.eq_of_toInt_eq (by rw [BitVec.toInt_ofInt, BitVec.toInt_sub])

/-- The signs of operands and result tell whether a sum left the signed range. -/
theorem addOverflow_iff (a b : Word) : addOverflow a b (b + a) = true ↔ Claims.outOfRange (b.toInt + a.toInt) := by
  have hsigns : addOverflow a b (b + a) = b.saddOverflow a := by
    rw [BitVec.saddOverflow_eq, addOverflow]
    cases a.msb <;> cases b.msb <;> cases (b + a).msb <;> rfl
  rw [hsigns, BitVec.saddOverflow, Bool.or_eq_true, decide_eq_true_iff, decide_eq_true_iff]
  unfold Claims.outOfRange
  omega

/-- The signs of operands and result tell whether a difference left the signed range. -/
theorem subOverflow_iff (a b : Word) : subOverflow a b (b - a) = true ↔ Claims.outOfRange (b.toInt - a.toInt) := by
  have hsigns : subOverflow a b (b - a) = b.ssubOverflow a := by
    rw [BitVec.ssubOverflow_eq, subOverflow]
    cases a.msb <;> cases b.msb <;> cases (b - a).msb <;> rfl
  rw [hsigns, BitVec.ssubOverflow, Bool.or_eq_true, decide_eq_true_iff, decide_eq_true_iff]
  unfold Claims.outOfRange
  omega

theorem logicOverflow_iff : logicOverflow = true ↔ False := by simp [logicOverflow]

/-- Settles O42: wrapping is the sum of words, and `addOverflow_iff` reads OF. -/
theorem addqAddsAndSetsFlags : Obligations.AddqAddsAndSetsFlags := by
  unfold Obligations.AddqAddsAndSetsFlags
  simp only [ofInt_toInt_add_toInt]
  exact alu_of_exec (fun _ _ => rfl) (fun _ _ _ => rfl) addOverflow_iff

/-- Settles O43: wrapping is the difference of words, and `subOverflow_iff` reads OF. -/
theorem subqSubtractsAndSetsFlags : Obligations.SubqSubtractsAndSetsFlags := by
  unfold Obligations.SubqSubtractsAndSetsFlags
  simp only [ofInt_toInt_sub_toInt]
  exact alu_of_exec (fun _ _ => rfl) (fun _ _ _ => rfl) subOverflow_iff

/-- Settles O44: an ALU instruction whose overflow is never set. -/
theorem andqMasksAndClearsOverflow : Obligations.AndqMasksAndClearsOverflow := by
  unfold Obligations.AndqMasksAndClearsOverflow
  exact alu_of_exec (fun _ _ => rfl) (fun _ _ _ => rfl) fun _ _ => logicOverflow_iff

/-- Settles O45: an ALU instruction whose overflow is never set. -/
theorem xorqTogglesAndClearsOverflow : Obligations.XorqTogglesAndClearsOverflow := by
  unfold Obligations.XorqTogglesAndClearsOverflow
  exact alu_of_exec (fun _ _ => rfl) (fun _ _ _ => rfl) fun _ _ => logicOverflow_iff

/-! ### Jumps (44_jumps.md) -/

theorem exec_jmp (dest : Word) (s : State) : exec (.jmp dest) s = .next (s.setPc dest) :=
  congrArg Host.Outcome.next (s.condJump_of_holds (Cond.holds_always _) dest)

/-- A jump to itself is a step that changes nothing. -/
theorem step_of_jmp_to_self {s : State} (hs : s.stat = .aok) (hcode : s.codeAtPc (encode (.jmp s.pc))) :
    step s = .next s := by
  obtain ⟨hb, hbytes⟩ := hcode
  have hdec : decode (s.mem.readBytes s.pc.toNat (encode (.jmp s.pc)).length) = .instr (.jmp s.pc) [] := by
    rw [hbytes, decode_encode]
  exact (step_of_fetch_instr hs (State.fetch_of_decode hb hdec)).trans (exec_jmp s.pc s)

/-- Settles O46; the run of a jump to itself by induction on the fuel. -/
theorem jmpSetsPc : Obligations.JmpSetsPc := by
  unfold Obligations.JmpSetsPc
  refine ⟨fun dest => encode_of_format_c rfl,
    fun dest s => ⟨s.setPc dest, exec_jmp dest s, rfl, s.onlyRegs_setPc dest []⟩, fun s fuel hs hcode => ?_⟩
  induction fuel with
  | zero => rfl
  | succ fuel ih => rw [callerRun_succ (step_of_jmp_to_self hs hcode), ih]

/-- An instruction that is `State.condJump` is a conditional jump as 44_jumps.md R152 describes it. -/
theorem conditionalJump_of_exec {op : Byte} {mk : Word → Instr} {c : Cond} {p : Flags → Prop}
    (hencode : ∀ dest, encode (mk dest) = op :: constBytes dest)
    (hexec : ∀ dest s, exec (mk dest) s = .next (s.condJump c dest))
    (hp : ∀ f, c.holds f = true ↔ p f) : Claims.conditionalJump op mk p := by
  refine ⟨hencode, fun dest s => ⟨s.condJump c dest, hexec dest s, fun h => ?taken, fun h => ?not_taken, ?frame⟩⟩
  case taken => rw [s.condJump_of_holds ((hp s.flags).mpr h), State.setPc_pc]
  case not_taken => rw [s.condJump_of_not_holds (mt (hp s.flags).mp h), State.setPc_pc]
  case frame => exact s.onlyRegs_setPc _ []

/-- Settles O47: the six differ in the condition alone. -/
theorem conditionalJumpsGoWhenTrue : Obligations.ConditionalJumpsGoWhenTrue := by
  unfold Obligations.ConditionalJumpsGoWhenTrue
  exact ⟨conditionalJump_of_exec (fun _ => rfl) (fun _ _ => rfl) Cond.holds_le_iff,
    conditionalJump_of_exec (fun _ => rfl) (fun _ _ => rfl) Cond.holds_l_iff,
    conditionalJump_of_exec (fun _ => rfl) (fun _ _ => rfl) Cond.holds_e_iff,
    conditionalJump_of_exec (fun _ => rfl) (fun _ _ => rfl) Cond.holds_ne_iff,
    conditionalJump_of_exec (fun _ => rfl) (fun _ _ => rfl) Cond.holds_ge_iff,
    conditionalJump_of_exec (fun _ => rfl) (fun _ _ => rfl) Cond.holds_g_iff⟩

end Sys2Proof.Machine

/-! Proofs about loads and stores: the memory moves, call and ret, push and pop. -/

namespace Sys2Proof.Machine

/-! ### Words in memory (20_memory.md R53, R54, R56) -/

theorem wordAt_of_mem_eq_writeWord {t : State} {m : Memory} {a : Nat} {v : Word} (h : t.mem = m.writeWord a v) :
    Claims.wordAt t a v :=
  fun _ hk => h ▸ m.readByte_writeWord_inside a v hk

theorem wordAt_readWord (s : State) (a : Nat) : Claims.wordAt s a (s.mem.readWord a) := by
  have hbytes := constBytes_constWord (s.mem.readByte a) (s.mem.readByte (a + 1)) (s.mem.readByte (a + 2))
    (s.mem.readByte (a + 3)) (s.mem.readByte (a + 4)) (s.mem.readByte (a + 5)) (s.mem.readByte (a + 6))
    (s.mem.readByte (a + 7))
  simp only [constBytes, List.cons.injEq, and_true] at hbytes
  obtain ⟨h0, h1, h2, h3, h4, h5, h6, h7⟩ := hbytes
  intro k hk
  interval_cases k
  exacts [h0.symm, h1.symm, h2.symm, h3.symm, h4.symm, h5.symm, h6.symm, h7.symm]

/-- The eight bytes of a word just written, in increasing address order. -/
theorem Memory.readBytes_writeWord (m : Memory) (a : Nat) (v : Word) :
    (m.writeWord a v).readBytes a 8 = constBytes v := by
  have h := fun k (hk : k < 8) => m.readByte_writeWord_inside a v hk
  have h0 := h 0 (by decide)
  rw [Nat.add_zero] at h0
  simp only [Memory.readBytes, Nat.add_assoc, Nat.reduceAdd, h0, h 1 (by decide), h 2 (by decide), h 3 (by decide),
    h 4 (by decide), h 5 (by decide), h 6 (by decide), h 7 (by decide)]
  rfl

/-- The seven low slices of a word, put together, are its low 56 bits. -/
theorem append_of_low_slices (v : Word) :
    v.extractLsb' 48 8 ++ v.extractLsb' 40 8 ++ v.extractLsb' 32 8 ++ v.extractLsb' 24 8 ++ v.extractLsb' 16 8 ++
      v.extractLsb' 8 8 ++ v.extractLsb' 0 8 = v.extractLsb' 0 56 := by
  apply BitVec.eq_of_getLsbD_eq
  intro i hi
  simp only [BitVec.getLsbD_append, BitVec.getLsbD_extractLsb']
  interval_cases i <;> simp

/-- One byte above a word just written, a load sees its seven low bytes and the byte after it. -/
theorem Memory.readWord_succ_writeWord (m : Memory) (a : Nat) (v : Word) :
    (m.writeWord a v).readWord (a + 1) = v.extractLsb' 0 56 ++ m.readByte (a + 8) := by
  have h := fun k (hk : k < 8) => m.readByte_writeWord_inside a v hk
  have hout : (m.writeWord a v).readByte (a + 8) = m.readByte (a + 8) :=
    m.readByte_writeWord_outside a v (.inr le_rfl)
  simp only [Memory.readWord, Nat.add_assoc, Nat.reduceAdd, hout, h 1 (by decide), h 2 (by decide), h 3 (by decide),
    h 4 (by decide), h 5 (by decide), h 6 (by decide), h 7 (by decide)]
  exact congrArg (· ++ m.readByte (a + 8)) (append_of_low_slices v)

theorem State.memWrite8_eq_some_iff {s t : State} {a v : Word} :
    s.memWrite8 a v = some t ↔ s.inBounds a 8 = true ∧ t = s.setMem (s.mem.writeWord a.toNat v) := by
  unfold State.memWrite8
  by_cases hb : s.inBounds a 8 = true
  · rw [if_pos hb, Option.some.injEq, eq_comm, and_iff_right hb]
  · rw [if_neg hb]
    exact iff_of_false nofun fun h => hb h.1

/-- Settles O30: the load meets the bytes of the store, all eight, or seven and the byte after them. -/
theorem loadSeesLastStore : Obligations.LoadSeesLastStore := by
  unfold Obligations.LoadSeesLastStore
  intro s t a v h
  obtain ⟨hb, rfl⟩ := State.memWrite8_eq_some_iff.mp h
  refine ⟨State.memRead8_eq_some_iff.mpr ⟨hb, Memory.readWord_writeWord ..⟩, fun hs hend =>
    State.memRead8_eq_some_iff.mpr ?_⟩
  obtain ⟨h0, -⟩ := State.inBounds_iff.mp hb
  have hint : (a + 1).toInt = a.toInt + 1 := State.toInt_add_of_inBounds hs (State.inBounds_mono (by decide) hb)
  have hnat : (a + 1).toNat = a.toNat + 1 := by
    have ha := toNat_of_toInt_nonneg h0
    have ha1 := toNat_of_toInt_nonneg (a := a + 1) (by omega)
    omega
  rw [hnat]
  refine ⟨State.inBounds_iff.mpr ?_, Memory.readWord_succ_writeWord ..⟩
  rw [hint, State.setMem_memMax]
  omega

/-! ### The memory moves (42_memory_moves.md) -/

/-- Settles O38: the store passes the guard and the bounds check, and the word's frame is that of its write. -/
theorem rmmovqStoresBelowStackPointer : Obligations.RmmovqStoresBelowStackPointer := by
  unfold Obligations.RmmovqStoresBelowStackPointer
  intro rA rB disp s ea
  refine ⟨rfl, fun hguard h0 hend => ⟨(s.setMem (s.mem.writeWord ea.toNat (s.readReg rA))).setPc (s.pc + 10), ?_,
    wordAt_of_mem_eq_writeWord rfl, rfl, fun _ _ => rfl, rfl, rfl,
    s.sameMemoryOutside_setMem_writeWord ea.toNat (s.readReg rA)⟩⟩
  rw [exec_rmmovq]
  exact if_pos ⟨hguard, State.inBounds_iff.mpr ⟨h0, hend⟩⟩

/-- Settles O39: each clause fails the guard or the bounds check. -/
theorem rmmovqStopsAtStackPointer : Obligations.RmmovqStopsAtStackPointer := by
  unfold Obligations.RmmovqStopsAtStackPointer
  intro rA rB disp s ea hout
  rw [exec_rmmovq]
  refine if_neg ?_
  rintro ⟨(hguard : ea.toInt < s.sp.toInt), hb⟩
  obtain ⟨h0, hend⟩ := State.inBounds_iff (a := ea).mp hb
  omega

/-- Settles O40: the word loaded is the one at the address, and it goes to `rA`. -/
theorem mrmovqLoadsWord : Obligations.MrmovqLoadsWord := by
  unfold Obligations.MrmovqLoadsWord
  intro rA rB disp s ea h0 hend
  refine ⟨(s.writeReg rA (s.mem.readWord ea.toNat)).setPc (s.pc + 10), ?_, ?_, rfl, s.onlyRegs_writeReg_setPc rA _ _⟩
  · rw [exec_mrmovq]
    exact if_pos (State.inBounds_iff.mpr ⟨h0, hend⟩)
  · rw [State.readReg_setPc, State.readReg_writeReg_self]
    exact wordAt_readWord s ea.toNat

/-- Settles O41: the bounds check is all that decides a load. -/
theorem mrmovqStopsOutOfBounds : Obligations.MrmovqStopsOutOfBounds := by
  unfold Obligations.MrmovqStopsOutOfBounds
  intro rA rB disp s ea hout
  rw [exec_mrmovq, State.inBounds_eq_false_iff.mpr hout]
  rfl

/-- Settles O31: the first bytes of the word just stored decode to the instruction they encode. -/
theorem storeIsSeenByNextFetch : Obligations.StoreIsSeenByNextFetch := by
  unfold Obligations.StoreIsSeenByNextFetch
  intro s t rA rB disp i hs hexec ht hnext henc
  rw [exec_rmmovq] at hexec
  split at hexec <;> cases hexec
  case isFalse => cases ht
  case isTrue hstored =>
    rw [hnext] at hstored ⊢
    refine step_of_fetch_instr ht (State.fetch_of_decode (n := 8) (rest := (constBytes (s.readReg rA)).drop i.length)
      hstored.2 ?_)
    calc decode ((s.mem.writeWord (s.pc + 10).toNat (s.readReg rA)).readBytes (s.pc + 10).toNat 8)
        = decode (encode i ++ (constBytes (s.readReg rA)).drop i.length) := by
          rw [Memory.readBytes_writeWord, henc, List.take_append_drop]
      _ = .instr i _ := decode_encode_append i _

/-! ### Pushes and pops (45_call_ret.md, 46_stack.md) -/

/-- Settles O48: `call` leaves a pushed state with pc at the destination. -/
theorem callPushesReturnAddress : Obligations.CallPushesReturnAddress := by
  unfold Obligations.CallPushesReturnAddress
  exact fun dest s => ⟨rfl, fun hlow hhigh => ⟨s.pushed (s.pc + 9) dest,
    (exec_call s dest).trans (if_pos ⟨hlow, hhigh⟩), wordAt_of_mem_eq_writeWord (s.pushed_mem _ _), s.sp_pushed _ _,
    s.pushed_pc _ _, s.onlyRegsAndWord_pushed _ _⟩⟩

/-- Settles O49: `pushq` leaves a pushed state with pc at the next instruction. -/
theorem pushqStoresOldValue : Obligations.PushqStoresOldValue := by
  unfold Obligations.PushqStoresOldValue
  exact fun rA s => ⟨rfl, fun hlow hhigh => ⟨s.pushed (s.readReg rA) (s.pc + 2),
    (exec_pushq s rA).trans (if_pos ⟨hlow, hhigh⟩), wordAt_of_mem_eq_writeWord (s.pushed_mem _ _), s.sp_pushed _ _,
    s.pushed_pc _ _, s.onlyRegsAndWord_pushed _ _⟩⟩

/-- Settles O50: the range of SP is all that decides a push. -/
theorem pushesStopWithoutRoom : Obligations.PushesStopWithoutRoom := by
  unfold Obligations.PushesStopWithoutRoom
  intro s hroom
  have hno : ¬(8 ≤ s.sp.toInt ∧ s.sp.toInt ≤ s.memMax) := by omega
  exact ⟨fun dest => (exec_call s dest).trans (if_neg hno), fun rA => (exec_pushq s rA).trans (if_neg hno)⟩

/-- Settles O51: the word at SP goes to pc. -/
theorem retPopsPc : Obligations.RetPopsPc := by
  unfold Obligations.RetPopsPc
  intro s h0 hend
  refine ⟨(s.writeReg spId (s.sp + 8)).setPc (s.mem.readWord s.sp.toNat), ?_, wordAt_readWord s s.sp.toNat,
    s.readReg_writeReg_self spId _, s.onlyRegs_writeReg_setPc spId _ _⟩
  exact (exec_ret s).trans (if_pos (State.inBounds_iff.mpr ⟨h0, hend⟩))

/-- Settles O52: the word at SP is written after SP, so that it wins. -/
theorem popqLoadsAndWinsOverSp : Obligations.PopqLoadsAndWinsOverSp := by
  unfold Obligations.PopqLoadsAndWinsOverSp
  intro rA s h0 hend
  have hexec := (exec_popq s rA).trans (if_pos (State.inBounds_iff.mpr ⟨h0, hend⟩))
  refine ⟨_, hexec, ?loads, fun hne => ?sp, rfl, exec_sameRegsBut hexec, rfl, rfl, rfl, fun _ => rfl⟩
  case loads =>
    rw [State.readReg_setPc, State.readReg_writeReg_self]
    exact wordAt_readWord s s.sp.toNat
  case sp =>
    rw [State.sp_setPc, State.sp, State.readReg_writeReg_of_ne _ _ hne.symm, State.readReg_writeReg_self]

/-- Settles O53: the bounds check at SP is all that decides a pop. -/
theorem popsStopOutOfBounds : Obligations.PopsStopOutOfBounds := by
  unfold Obligations.PopsStopOutOfBounds
  intro s hout
  have hb : ¬s.inBounds s.sp 8 = true := by rw [State.inBounds_eq_false_iff.mpr hout]; decide
  exact ⟨(exec_ret s).trans (if_neg hb), fun rA => (exec_popq s rA).trans (if_neg hb)⟩

/-- What a pop right after a push finds: the word pushed, in bounds, and the stack pointer the push began with. -/
theorem State.pop_after_pushed {s : State} (hlow : 8 ≤ s.sp.toInt) (hhigh : s.sp.toInt ≤ s.memMax) (v target : Word) :
    (s.pushed v target).inBounds (s.pushed v target).sp 8 = true ∧
      (s.pushed v target).mem.readWord (s.pushed v target).sp.toNat = v ∧ (s.pushed v target).sp + 8 = s.sp := by
  rw [State.sp_pushed, State.pushed_mem, Memory.readWord_writeWord, State.inBounds_iff, State.pushed_memMax]
  have hint : s.pushAddress.toInt = s.sp.toInt - 8 := toInt_sub_eight (by omega)
  exact ⟨by omega, rfl, BitVec.sub_add_cancel s.sp 8⟩

/-- Settles O54: the pop puts back the SP of before the push, then writes `q`. -/
theorem popRestoresPush : Obligations.PopRestoresPush := by
  unfold Obligations.PopRestoresPush
  intro r q s hlow hhigh
  obtain ⟨hb, hword, hsp⟩ := State.pop_after_pushed hlow hhigh (s.readReg r) (s.pc + 2)
  refine ⟨s.pushed (s.readReg r) (s.pc + 2), _, (exec_pushq s r).trans (if_pos ⟨hlow, hhigh⟩),
    (exec_popq _ q).trans (if_pos hb), ?value, fun hq => ?sp, ?pc⟩
  case value => rw [State.readReg_setPc, State.readReg_writeReg_self, hword]
  case sp => rw [State.sp_setPc, State.sp, State.readReg_writeReg_of_ne _ _ hq.symm, State.readReg_writeReg_self, hsp]
  case pc => exact BitVec.add_assoc s.pc 2 2

/-- Settles O55: the `ret` loads the return address and puts SP back. -/
theorem retUndoesCall : Obligations.RetUndoesCall := by
  unfold Obligations.RetUndoesCall
  intro dest s hlow hhigh
  obtain ⟨hb, hword, hsp⟩ := State.pop_after_pushed hlow hhigh (s.pc + 9) dest
  refine ⟨s.pushed (s.pc + 9) dest, _, (exec_call s dest).trans (if_pos ⟨hlow, hhigh⟩),
    (exec_ret _).trans (if_pos hb), ?pc, fun r _ => ?registers⟩
  case pc => rw [State.setPc_pc, hword]
  case registers =>
    rw [State.readReg_setPc, State.readReg_writeReg, hsp]
    split
    case isTrue hr => rw [hr, State.sp]
    case isFalse hr => exact (s.onlyRegsAndWord_pushed (s.pc + 9) dest).1 r (by simpa using hr)

end Sys2Proof.Machine
